-- ==== Sys2Proof/Word.lean ====
section
/-! DEFINITION. The machine's word types (spec/00_scope.md R2, section 5 Notation). -/

namespace Sys2Proof

/-- A memory byte, a general register, a timer (R2: 8 bits, unsigned). -/
abbrev Byte := BitVec 8

/-- An instruction word, `PC`, `I` or a return address (R2: 16 bits, unsigned). -/
abbrev Word := BitVec 16

/-- The number of a general register `V[0]` to `V[0xF]`: a 4-bit field cannot name another (R8, R40). -/
abbrev Reg := Fin 16

/-- The flag register VF, `V[0xF]` (R9). -/
abbrev Reg.vf : Reg := 15

end Sys2Proof
end

