-- ==== Sys2Proof/Syntax.lean ====
section
/-! DEFINITION. The 35 instructions (spec/30_encoding.md R41, spec/opcode_table.json), one constructor a row. -/

namespace Sys2Proof

/-- One decoded instruction: its fields are those of R39 that the row's pattern names.
`shr` and `shl` keep the `y` field that no rule reads (R44), so that an instruction has one word (log 6). -/
inductive Instr where
  /-- `00E0` -/ | cls
  /-- `00EE` -/ | ret
  /-- `0nnn` -/ | sys (nnn : BitVec 12)
  /-- `1nnn` -/ | jp (nnn : BitVec 12)
  /-- `2nnn` -/ | call (nnn : BitVec 12)
  /-- `3xkk` -/ | seImm (x : Reg) (kk : Byte)
  /-- `4xkk` -/ | sneImm (x : Reg) (kk : Byte)
  /-- `5xy0` -/ | seReg (x y : Reg)
  /-- `6xkk` -/ | ldImm (x : Reg) (kk : Byte)
  /-- `7xkk` -/ | addImm (x : Reg) (kk : Byte)
  /-- `8xy0` -/ | ldReg (x y : Reg)
  /-- `8xy1` -/ | or (x y : Reg)
  /-- `8xy2` -/ | and (x y : Reg)
  /-- `8xy3` -/ | xor (x y : Reg)
  /-- `8xy4` -/ | addReg (x y : Reg)
  /-- `8xy5` -/ | sub (x y : Reg)
  /-- `8xy6` -/ | shr (x y : Reg)
  /-- `8xy7` -/ | subn (x y : Reg)
  /-- `8xyE` -/ | shl (x y : Reg)
  /-- `9xy0` -/ | sneReg (x y : Reg)
  /-- `Annn` -/ | ldI (nnn : BitVec 12)
  /-- `Bnnn` -/ | jpV0 (nnn : BitVec 12)
  /-- `Cxkk` -/ | rnd (x : Reg) (kk : Byte)
  /-- `Dxyn` -/ | drw (x y : Reg) (n : BitVec 4)
  /-- `Ex9E` -/ | skp (x : Reg)
  /-- `ExA1` -/ | sknp (x : Reg)
  /-- `Fx07` -/ | ldVxDt (x : Reg)
  /-- `Fx0A` -/ | ldVxK (x : Reg)
  /-- `Fx15` -/ | ldDtVx (x : Reg)
  /-- `Fx18` -/ | ldStVx (x : Reg)
  /-- `Fx1E` -/ | addIVx (x : Reg)
  /-- `Fx29` -/ | ldFVx (x : Reg)
  /-- `Fx33` -/ | ldBVx (x : Reg)
  /-- `Fx55` -/ | ldMemVx (x : Reg)
  /-- `Fx65` -/ | ldVxMem (x : Reg)
  deriving DecidableEq, Repr

end Sys2Proof
end

