-- ==== Sys2Proof/Decode.lean ====
section
/-! DEFINITION. Byte order, fields, the decoder and the encoder (spec/30_encoding.md R38 to R47). -/

namespace Sys2Proof

/-- The instruction word of two bytes, the one at the lower address first: big-endian (R30). -/
def wordOfBytes (b0 b1 : Byte) : Word := b0 ++ b1

/-- Bits 15 to 8 of a word: the byte at the lower address (R30). -/
def highByte (w : Word) : Byte := w.extractLsb' 8 8

/-- Bits 7 to 0 of a word: the byte at the higher address (R30). -/
def lowByte (w : Word) : Byte := w.extractLsb' 0 8

/-- `op = w[15:12]` (R39). -/
def fieldOp (w : Word) : BitVec 4 := w.extractLsb' 12 4

/-- `x = w[11:8]`, a register number (R39). -/
def fieldX (w : Word) : Reg := (w.extractLsb' 8 4).toFin

/-- `y = w[7:4]`, a register number (R39). -/
def fieldY (w : Word) : Reg := (w.extractLsb' 4 4).toFin

/-- `n = w[3:0]` (R39). -/
def fieldN (w : Word) : BitVec 4 := w.extractLsb' 0 4

/-- `kk = w[7:0]` (R39). -/
def fieldKk (w : Word) : Byte := w.extractLsb' 0 8

/-- `nnn = w[11:0]` (R39). -/
def fieldNnn (w : Word) : BitVec 12 := w.extractLsb' 0 12

/-- Why bytes are no instruction: the five sets of illegal words of R46, by name, and fewer than two bytes. -/
inductive DecodeReject where
  /-- `5xyN`, `N != 0` (R43) -/ | family5
  /-- `8xyN`, `N` not one of 0 to 7 and 0xE (R44) -/ | family8
  /-- `9xyN`, `N != 0` (R43) -/ | family9
  /-- `ExKK`, `KK` neither 0x9E nor 0xA1 (R45) -/ | familyE
  /-- `FxKK`, `KK` none of the nine of R45 -/ | familyF
  /-- fewer than two bytes are there to decode (R38) -/ | truncated
  deriving DecidableEq, Repr

/-- What decoding answers: an instruction, or a decode failure with its reason (R41). -/
inductive Decoded where
  | instr (i : Instr)
  | reject (why : DecodeReject)
  deriving DecidableEq, Repr

/-- Family 0: the two whole words first, then `0nnn` (R42). -/
def decode0 (w : Word) : Decoded :=
  if w = 0x00E0#16 then .instr .cls
  else if w = 0x00EE#16 then .instr .ret
  else .instr (.sys (fieldNnn w))

/-- Family 8, by `n` (R44). -/
def decode8 (w : Word) : Decoded :=
  let x := fieldX w
  let y := fieldY w
  match fieldN w with
  | 0x0#4 => .instr (.ldReg x y)
  | 0x1#4 => .instr (.or x y)
  | 0x2#4 => .instr (.and x y)
  | 0x3#4 => .instr (.xor x y)
  | 0x4#4 => .instr (.addReg x y)
  | 0x5#4 => .instr (.sub x y)
  | 0x6#4 => .instr (.shr x y)
  | 0x7#4 => .instr (.subn x y)
  | 0xE#4 => .instr (.shl x y)
  | _ => .reject .family8

/-- Family E, by `kk` (R45). -/
def decodeE (w : Word) : Decoded :=
  match fieldKk w with
  | 0x9E#8 => .instr (.skp (fieldX w))
  | 0xA1#8 => .instr (.sknp (fieldX w))
  | _ => .reject .familyE

/-- Family F, by `kk` (R45). -/
def decodeF (w : Word) : Decoded :=
  let x := fieldX w
  match fieldKk w with
  | 0x07#8 => .instr (.ldVxDt x)
  | 0x0A#8 => .instr (.ldVxK x)
  | 0x15#8 => .instr (.ldDtVx x)
  | 0x18#8 => .instr (.ldStVx x)
  | 0x1E#8 => .instr (.addIVx x)
  | 0x29#8 => .instr (.ldFVx x)
  | 0x33#8 => .instr (.ldBVx x)
  | 0x55#8 => .instr (.ldMemVx x)
  | 0x65#8 => .instr (.ldVxMem x)
  | _ => .reject .familyF

/-- The decoder of R41, total on all 65536 words; its last arm is the one top nibble left, 0xF. -/
def decode (w : Word) : Decoded :=
  match fieldOp w with
  | 0x0#4 => decode0 w
  | 0x1#4 => .instr (.jp (fieldNnn w))
  | 0x2#4 => .instr (.call (fieldNnn w))
  | 0x3#4 => .instr (.seImm (fieldX w) (fieldKk w))
  | 0x4#4 => .instr (.sneImm (fieldX w) (fieldKk w))
  | 0x5#4 => if fieldN w = 0#4 then .instr (.seReg (fieldX w) (fieldY w)) else .reject .family5
  | 0x6#4 => .instr (.ldImm (fieldX w) (fieldKk w))
  | 0x7#4 => .instr (.addImm (fieldX w) (fieldKk w))
  | 0x8#4 => decode8 w
  | 0x9#4 => if fieldN w = 0#4 then .instr (.sneReg (fieldX w) (fieldY w)) else .reject .family9
  | 0xA#4 => .instr (.ldI (fieldNnn w))
  | 0xB#4 => .instr (.jpV0 (fieldNnn w))
  | 0xC#4 => .instr (.rnd (fieldX w) (fieldKk w))
  | 0xD#4 => .instr (.drw (fieldX w) (fieldY w) (fieldN w))
  | 0xE#4 => decodeE w
  | _ => decodeF w

/-- The instruction at the head of a list of bytes and the bytes after it: every instruction is two bytes (R38). -/
def decodeBytes : List Byte → Decoded × List Byte
  | b0 :: b1 :: rest => (decode (wordOfBytes b0 b1), rest)
  | bs => (.reject .truncated, bs)

/-- The host's question about a row of spec/opcode_table.json: the word `w` of `nbits` bits, the bits above them 0,
laid out in memory order and decoded. -/
def decodeTableWord (nbits w : Nat) : Option Instr :=
  let word : Word := BitVec.ofNat 16 (w % 2 ^ nbits)
  match (decodeBytes [highByte word, lowByte word]).1 with
  | .instr i => some i
  | .reject _ => none

/-- A register number as its 4-bit field. -/
def regField (x : Reg) : BitVec 4 := BitVec.ofFin x

/-- `op nnn` (R39). -/
def packNnn (op : BitVec 4) (nnn : BitVec 12) : Word := op ++ nnn

/-- `op x kk` (R39). -/
def packXkk (op : BitVec 4) (x : Reg) (kk : Byte) : Word := (op ++ regField x : BitVec 8) ++ kk

/-- `op x y n` (R39). -/
def packXyn (op : BitVec 4) (x y : Reg) (n : BitVec 4) : Word :=
  (op ++ regField x : BitVec 8) ++ (regField y ++ n : BitVec 8)

/-- The word of an instruction, by the pattern column of R47's map; of a well-formed instruction, its only word. -/
def encode : Instr → Word
  | .cls => 0x00E0#16
  | .ret => 0x00EE#16
  | .sys nnn => packNnn 0x0#4 nnn
  | .jp nnn => packNnn 0x1#4 nnn
  | .call nnn => packNnn 0x2#4 nnn
  | .seImm x kk => packXkk 0x3#4 x kk
  | .sneImm x kk => packXkk 0x4#4 x kk
  | .seReg x y => packXyn 0x5#4 x y 0x0#4
  | .ldImm x kk => packXkk 0x6#4 x kk
  | .addImm x kk => packXkk 0x7#4 x kk
  | .ldReg x y => packXyn 0x8#4 x y 0x0#4
  | .or x y => packXyn 0x8#4 x y 0x1#4
  | .and x y => packXyn 0x8#4 x y 0x2#4
  | .xor x y => packXyn 0x8#4 x y 0x3#4
  | .addReg x y => packXyn 0x8#4 x y 0x4#4
  | .sub x y => packXyn 0x8#4 x y 0x5#4
  | .shr x y => packXyn 0x8#4 x y 0x6#4
  | .subn x y => packXyn 0x8#4 x y 0x7#4
  | .shl x y => packXyn 0x8#4 x y 0xE#4
  | .sneReg x y => packXyn 0x9#4 x y 0x0#4
  | .ldI nnn => packNnn 0xA#4 nnn
  | .jpV0 nnn => packNnn 0xB#4 nnn
  | .rnd x kk => packXkk 0xC#4 x kk
  | .drw x y n => packXyn 0xD#4 x y n
  | .skp x => packXkk 0xE#4 x 0x9E#8
  | .sknp x => packXkk 0xE#4 x 0xA1#8
  | .ldVxDt x => packXkk 0xF#4 x 0x07#8
  | .ldVxK x => packXkk 0xF#4 x 0x0A#8
  | .ldDtVx x => packXkk 0xF#4 x 0x15#8
  | .ldStVx x => packXkk 0xF#4 x 0x18#8
  | .addIVx x => packXkk 0xF#4 x 0x1E#8
  | .ldFVx x => packXkk 0xF#4 x 0x29#8
  | .ldBVx x => packXkk 0xF#4 x 0x33#8
  | .ldMemVx x => packXkk 0xF#4 x 0x55#8
  | .ldVxMem x => packXkk 0xF#4 x 0x65#8

end Sys2Proof
end

