-- ==== Sys2Proof/Config.lean ====
section
/-! DEFINITION. The named parameters of the block (spec/00_scope.md R3 to R6), their defaults, and the free random byte. -/

namespace Sys2Proof

/-- `VF_ALIAS` (R4): how an instruction runs whose result is ambiguous when an operand register is VF. -/
inductive VfAlias where
  /-- the assignments run in the order written (the default) -/
  | sequential
  /-- such an execution raises `Unmodelled` -/
  | refuse
  deriving DecidableEq, Repr

/-- `I_ADD_OVERFLOW` (R5): what `Fx1E` does when `I + V[x]` exceeds 0xFFFF. -/
inductive IAddOverflow where
  /-- the sum is taken modulo 2^16 (the default) -/
  | wrap
  /-- `IndexOverflow` is raised -/
  | fault
  deriving DecidableEq, Repr

/-- The 80 bytes written at address 0 at construction (R3). -/
abbrev Font := Vector Byte 80

/-- The block's parameters (R3, R4, R5): fixed for one machine, any value of them a machine the spec allows. -/
structure Params where
  font         : Font
  vfAlias      : VfAlias
  iAddOverflow : IAddOverflow
  deriving DecidableEq, Repr

namespace Config

/-- The default `FONT`: the conventional digit set of R25, five bytes a digit, top row first.
PRESUMED, unsafe (log 3): the spec supplies these bytes from general knowledge. -/
def defaultFont : Font :=
  #v[0xF0, 0x90, 0x90, 0x90, 0xF0,  0x20, 0x60, 0x20, 0x20, 0x70,
     0xF0, 0x10, 0xF0, 0x80, 0xF0,  0xF0, 0x10, 0xF0, 0x10, 0xF0,
     0x90, 0x90, 0xF0, 0x10, 0x10,  0xF0, 0x80, 0xF0, 0x10, 0xF0,
     0xF0, 0x80, 0xF0, 0x90, 0xF0,  0xF0, 0x10, 0x20, 0x40, 0x40,
     0xF0, 0x90, 0xF0, 0x90, 0xF0,  0xF0, 0x90, 0xF0, 0x10, 0xF0,
     0xF0, 0x90, 0xF0, 0x90, 0x90,  0xE0, 0x90, 0xE0, 0x90, 0xE0,
     0xF0, 0x80, 0x80, 0x80, 0xF0,  0xE0, 0x90, 0x90, 0x90, 0xE0,
     0xF0, 0x80, 0xF0, 0x80, 0xF0,  0xF0, 0x80, 0xF0, 0x80, 0x80]

/-- The parameters' defaults (R3, R4, R5). -/
def defaultParams : Params :=
  { font := defaultFont, vfAlias := .sequential, iAddOverflow := .wrap }

/-- The oracle of R6: the byte drawn by the execution of `Cxkk` that `n` others went before.
It has no body, so every proof holds for every draw (D16; log 4, safe). -/
opaque rand : Nat → Byte

end Config
end Sys2Proof
end

