-- ==== Sys2Proof/Machine/State.lean ====
section
/-! DEFINITION. The whole state of the block (spec/10_state.md), the fault record (spec/60_exceptions.md R95), the reasons a
step or a host command can stop, and the state after construction (spec/70_reset_and_hazards.md R123). -/

namespace Sys2Proof.Machine

/-- The seven kinds of fault (R95 to R102). -/
inductive FaultKind where
  /-- code 1: the word matches no pattern (R96) -/ | decodeFailure
  /-- code 2: `2nnn` with `SP = 16` (R97) -/ | stackOverflow
  /-- code 3: `00EE` with `SP = 0` (R98) -/ | stackUnderflow
  /-- code 4: an address above 4095 is needed (R99) -/ | memoryOutOfRange
  /-- code 5: `Ex9E` or `ExA1` with `V[x] > 15` (R100) -/ | keyIndexOutOfRange
  /-- code 6: `Fx1E` past 0xFFFF under `I_ADD_OVERFLOW = fault` (R101) -/ | indexOverflow
  /-- code 7: VF as an operand under `VF_ALIAS = refuse` (R102) -/ | unmodelled
  deriving DecidableEq, Repr

/-- A fault record (R95); its field `code` is a function of `kind`, `FaultKind.code` in Machine/Ops.lean (log 9). -/
structure FaultRecord where
  kind : FaultKind
  /-- the fetch address `pc0` of the faulting cycle -/
  pc   : Word
  /-- the instruction word, none when the fetch itself faulted -/
  word : Option Word
  /-- the offending address or value, an exact number, where the kind has one -/
  info : Option Nat
  deriving DecidableEq, Repr

/-- The run status (R18). -/
inductive Status where
  | running
  | halted (f : FaultRecord)
  deriving DecidableEq, Repr

/-- The reason `step` answers a fault. -/
inductive Fault where
  /-- raised by `step` alone, in a state that is already Halted(f): the block has no step there and answers the record
  again (R54, R103, R112). The fault that halted it was an ordinary next state (log 1). Safe: the machine stops as the
  block does. -/
  | halted (f : FaultRecord)
  deriving DecidableEq, Repr

/-- The reasons an instruction or a host command is refused. -/
inductive Refusal where
  /-- an arm of `exec` without a meaning; no arm raises it. Safe. -/
  | notModelled (mnemonic : String)
  /-- raised by the host command `load` on more than 3584 bytes, which changes nothing (R111, D18). Safe. -/
  | loadTooLarge
  /-- raised by the host command `set_key` on a key above 15, which changes nothing (R116, D19). Safe. -/
  | keyOutOfRange
  deriving DecidableEq, Repr

/-- Memory as the bytes that differ from what construction wrote (log 5): addresses strictly rising, no other entry. -/
abbrev Memory := List Host.Cell

/-- The framebuffer `fb[row][col]`, 32 rows of 64 pixels, true = set (R16). -/
abbrev Framebuffer := Vector (Vector Bool 64) 32

/-- The state of the block: the table of 10_state.md element by element, and two fields of the model's own. -/
structure State where
  /-- `V[0]` to `V[15]` (R8, R9) -/
  v      : Vector Byte 16
  /-- the index register `I` (R10) -/
  i      : Word
  /-- the program counter `PC` (R11) -/
  pc     : Word
  /-- `stack[0]` to `stack[15]` (R12) -/
  stack  : Vector Word 16
  /-- the stack depth `SP`, 0 to 16 (R12, D9) -/
  sp     : Fin 17
  /-- the delay timer `DT` (R13) -/
  dt     : Byte
  /-- the sound timer `ST` (R14) -/
  st     : Byte
  /-- the keyboard latch `key[0]` to `key[15]`, true = recorded as pressed (R15) -/
  key    : Vector Bool 16
  /-- the framebuffer (R16) -/
  fb     : Framebuffer
  /-- whether a redraw is owed to the host (R17) -/
  dirty  : Bool
  /-- `mem[0]` to `mem[4095]` (R23) -/
  mem    : Memory
  /-- Running or Halted(f) (R18) -/
  status : Status
  /-- the model's own: the parameters of R3 to R5, which nothing changes (log 2) -/
  params : Params
  /-- the model's own: how many `Cxkk` have run, which picks the next draw (R6; log 4) -/
  draws  : Nat
  deriving DecidableEq, Repr

/-- Construction under the parameters `p` (R123): every element at its reset value; memory lists nothing, so it reads as
`FONT` at 0 to 79 and 0 elsewhere. -/
def State.construct (p : Params) : State where
  v      := Vector.replicate 16 0#8
  i      := 0#16
  pc     := 0x200#16
  stack  := Vector.replicate 16 0#16
  sp     := 0
  dt     := 0#8
  st     := 0#8
  key    := Vector.replicate 16 false
  fb     := Vector.replicate 32 (Vector.replicate 64 false)
  dirty  := false
  mem    := []
  status := .running
  params := p
  draws  := 0

/-- The block right after construction under the default parameters (R123, R3 to R5). -/
def State.reset : State := State.construct Config.defaultParams

end Sys2Proof.Machine
end

