-- ==== Sys2Proof/Machine/Ops.lean ====
section
/-! DEFINITION. The named operations over registers, memory, stack, latch, framebuffer and timers, and taking a fault.
The block has no other exception and no return from one (spec/60_exceptions.md R105, R106). -/

namespace Sys2Proof.Machine

/-! ### Registers -/

/-- `V[x]` (R8): none is hard-wired. -/
def State.getV (s : State) (x : Reg) : Byte := s.v[x]

/-- `V[x] <- b` (R8). -/
def State.setV (s : State) (x : Reg) (b : Byte) : State := { s with v := s.v.set x b }

/-- `V[0xF] <- b`, the flag write (R9). -/
def State.setVF (s : State) (b : Byte) : State := s.setV Reg.vf b

/-- `I <- a` (R10). -/
def State.setI (s : State) (a : Word) : State := { s with i := a }

/-- `PC <- a` (R11). -/
def State.setPc (s : State) (a : Word) : State := { s with pc := a }

/-- The advance of the cycle driver, `PC <- PC + 2` (R51). -/
def State.advance (s : State) : State := s.setPc (s.pc + 2#16)

/-- A skip: a further `PC <- PC + 2` (R56). -/
def State.skip (s : State) : State := s.setPc (s.pc + 2#16)

/-- The rewind of `Fx0A`, `PC <- PC - 2` (R91). -/
def State.rewind (s : State) : State := s.setPc (s.pc - 2#16)

/-- `DT <- b` (R13). -/
def State.setDt (s : State) (b : Byte) : State := { s with dt := b }

/-- `ST <- b` (R14). -/
def State.setSt (s : State) (b : Byte) : State := { s with st := b }

/-- One timer's tick: down by 1, floored at 0 (R53). -/
def tickDown (t : Byte) : Byte := if 0 < t.toNat then t - 1#8 else 0#8

/-- The tick of both timers at the end of a completed cycle (R53). -/
def State.tick (s : State) : State := { s with dt := tickDown s.dt, st := tickDown s.st }

/-- The draw of `Cxkk` in this state (R6). -/
def State.draw (s : State) : Byte := Config.rand s.draws

/-- One more draw has been taken (R6; log 4). -/
def State.countDraw (s : State) : State := { s with draws := s.draws + 1 }

/-! ### Call stack -/

/-- `stack[SP] <- a; SP <- SP + 1`; none when 16 entries are held (R60). -/
def State.push (s : State) (a : Word) : Option State :=
  if h : s.sp.val < 16 then
    some { s with stack := s.stack.set s.sp.val a, sp := ⟨s.sp.val + 1, by omega⟩ }
  else none

/-- `SP <- SP - 1`, then `stack[SP]`, whose slot keeps its value; none when no entry is held (R57, R12). -/
def State.pop (s : State) : Option (Word × State) :=
  if h : 0 < s.sp.val then
    some (s.stack[s.sp.val - 1], { s with sp := ⟨s.sp.val - 1, by omega⟩ })
  else none

/-! ### Memory -/

/-- The number of memory bytes, `MEM_SIZE` (R2). -/
abbrev memSize : Nat := 4096

/-- What an address that memory does not list reads as: what construction wrote there (R123; log 5). -/
def Memory.unlisted (font : Font) (a : Nat) : Byte := if h : a < 80 then font[a] else 0#8

/-- The byte at an address. -/
def Memory.byte (font : Font) : Memory → Nat → Byte
  | [], a => Memory.unlisted font a
  | (k, b) :: m, a => if k = a then b else Memory.byte font m a

/-- The entry of a byte in front of `m`: none for the byte an unlisted address reads as. -/
def Memory.entry (font : Font) (a : Nat) (b : Byte) (m : Memory) : Memory :=
  if b = Memory.unlisted font a then m else (a, b) :: m

/-- Writing one byte, keeping the canonical form. -/
def Memory.store (font : Font) : Memory → Nat → Byte → Memory
  | [], a, b => Memory.entry font a b []
  | (k, c) :: m, a, b =>
    if a < k then Memory.entry font a b ((k, c) :: m)
    else if a = k then Memory.entry font a b m
    else (k, c) :: Memory.store font m a b

/-- The canonical form: addresses strictly rising, all of them memory's, no byte that need not be listed. -/
abbrev Memory.wf (font : Font) (m : Memory) : Prop :=
  m.Pairwise (fun p q => p.1 < q.1) ∧ ∀ c ∈ m, c.1 < memSize ∧ c.2 ≠ Memory.unlisted font c.1

/-- `mem[a]` of an address that a range check has let through (R23). -/
def State.byte (s : State) (a : Nat) : Byte := Memory.byte s.params.font s.mem a

/-- `MemRead(a, 1)`: none above 4095, where there is no memory (R27). -/
def State.memRead (s : State) (a : Nat) : Option Byte := if a < memSize then some (s.byte a) else none

/-- `mem[a] <- b` of an address that a range check has let through (R23); there is no write protection (R26). -/
def State.writeByte (s : State) (a : Nat) (b : Byte) : State :=
  { s with mem := Memory.store s.params.font s.mem a b }

/-- `n` bytes from address `a` up. -/
def State.readBytes (s : State) (a : Nat) : Nat → List Byte
  | 0 => []
  | n + 1 => s.byte a :: s.readBytes (a + 1) n

/-- Writing a list of bytes from address `a` up, in ascending order. -/
def State.writeBytes (s : State) (a : Nat) : List Byte → State
  | [] => s
  | b :: bs => (s.writeByte a b).writeBytes (a + 1) bs

/-! ### Keyboard latch, framebuffer -/

/-- `key[k]` (R15). -/
def State.pressed (s : State) (k : Fin 16) : Bool := s.key[k]

/-- `key[k] <- 1` (R116). -/
def State.pressKey (s : State) (k : Fin 16) : State := { s with key := s.key.set k true }

/-- Clearing the latch: every `key[k] <- 0` at once (45_keys_timers.md). -/
def State.clearKeys (s : State) : State := { s with key := Vector.replicate 16 false }

/-- The lowest-numbered pressed key (R91). -/
def State.firstPressed (s : State) : Option (Fin 16) := (List.finRange 16).find? s.pressed

/-- `fb[row][col]` of a framebuffer (R16). -/
def Framebuffer.pixel (f : Framebuffer) (row : Fin 32) (col : Fin 64) : Bool := f[row][col]

/-- `fb[row][col] <- fb[row][col] XOR 1`. -/
def Framebuffer.flip (f : Framebuffer) (row : Fin 32) (col : Fin 64) : Framebuffer :=
  f.set row (f[row].set col (!f[row][col]))

/-- The framebuffer with every pixel unset (R85). -/
def Framebuffer.clear : Framebuffer := Vector.replicate 32 (Vector.replicate 64 false)

/-- `fb[row][col]` (R16). -/
def State.pixel (s : State) (row : Fin 32) (col : Fin 64) : Bool := Framebuffer.pixel s.fb row col

/-- The framebuffer replaced whole. -/
def State.setFb (s : State) (f : Framebuffer) : State := { s with fb := f }

/-- `dirty <- b` (R17). -/
def State.setDirty (s : State) (b : Bool) : State := { s with dirty := b }

/-! ### Taking a fault -/

/-- The code of a fault's kind (the table of R95). -/
def FaultKind.code : FaultKind → Nat
  | .decodeFailure => 1
  | .stackOverflow => 2
  | .stackUnderflow => 3
  | .memoryOutOfRange => 4
  | .keyIndexOutOfRange => 5
  | .indexOverflow => 6
  | .unmodelled => 7

/-- The field `code` of a fault record (R95). -/
def FaultRecord.code (f : FaultRecord) : Nat := f.kind.code

/-- Taking a fault (R94): `status <- Halted(f)`, and `PC` the fetch address again, since nothing of the cycle is kept;
a fault is raised before its instruction's first write (R7), so the rest of the state is already the one before the cycle. -/
def State.takeFault (s : State) (f : FaultRecord) : State := { s with pc := f.pc, status := .halted f }

/-- The fetch address `pc0` of the instruction being executed, which sees `PC` advanced by 2 (R51, R52; log 8). -/
def State.pc0 (s : State) : Word := s.pc - 2#16

/-- `raise <Fault>(info)` by an instruction being executed (R94, R95). -/
def raise (kind : FaultKind) (info : Option Nat) (i : Instr) (s : State) : Host.Outcome State Fault Refusal :=
  .next (s.takeFault { kind := kind, pc := s.pc0, word := some (encode i), info := info })

end Sys2Proof.Machine
end

