-- ==== Sys2Proof/Machine/Cycle.lean ====
section
/-! DEFINITION. What a cycle does around an instruction: fetch, decode, the tick (spec/40_cycle.md R49 to R53). -/

namespace Sys2Proof.Machine

/-- The record of a fetch that needs the address `a` above 4095 (R50, R99: no word). -/
def State.fetchFault (s : State) (a : Nat) : FaultRecord :=
  { kind := .memoryOutOfRange, pc := s.pc, word := none, info := some a }

/-- The fetch (R50): the two bytes at `PC` and `PC + 1`, exact addresses, odd ones too (R31). -/
def State.fetchWord (s : State) : Except FaultRecord Word :=
  match s.memRead s.pc.toNat with
  | none => .error (s.fetchFault s.pc.toNat)
  | some b0 =>
    match s.memRead (s.pc.toNat + 1) with
    | none => .error (s.fetchFault (s.pc.toNat + 1))
    | some b1 => .ok (wordOfBytes b0 b1)

/-- Fetch and decode: the instruction of this cycle or the fault that ends it, in the order of R104. -/
def State.fetchInstr (s : State) : Except FaultRecord Instr :=
  match s.fetchWord with
  | .error f => .error f
  | .ok w =>
    match decode w with
    | .instr i => .ok i
    | .reject _ => .error { kind := .decodeFailure, pc := s.pc, word := some w, info := none }

/-- The end of a cycle: the tick, in a state that no fault has halted (R53). -/
def State.endCycle (s : State) : State :=
  match s.status with
  | .running => s.tick
  | .halted _ => s

/-- The end of a cycle, on what an instruction answered. -/
def finishCycle : Host.Outcome State Fault Refusal → Host.Outcome State Fault Refusal
  | .next s => .next s.endCycle
  | .fault r => .fault r
  | .refused r => .refused r

/-- An instruction's two bytes stored where the next fetch reads them. -/
def State.storeWordAtPc (s : State) (w : Word) : State :=
  s.writeBytes s.pc.toNat [highByte w, lowByte w]

end Sys2Proof.Machine
end

