-- ==== Sys2Proof/Machine/Operands.lean ====
section
/-! DEFINITION. The operand forms: immediates, addresses, key numbers, sprite positions (spec/30_encoding.md R40,
spec/43_index_memory.md, spec/44_display.md R86) and the parameter `VF_ALIAS` on the operands (spec/00_scope.md R4). -/

namespace Sys2Proof.Machine

/-- `zext_16(nnn)` (R40). -/
def zextNnn (nnn : BitVec 12) : Word := nnn.zeroExtend 16

/-- `zext_16(V[x])` of a register byte. -/
def zextByte (b : Byte) : Word := b.zeroExtend 16

/-- Whether `VF_ALIAS = refuse` and one of the operand registers is VF (R4). -/
def State.refusesVf (s : State) (xs : List Reg) : Bool := s.params.vfAlias == .refuse && xs.contains Reg.vf

/-- The effective address `I + j`, an exact number, never reduced (R28). -/
abbrev State.ea (s : State) (j : Nat) : Nat := s.i.toNat + j

/-- The range check of `n` bytes from `I` up: the address to report, `max(I, 4096)`, when one is above 4095 (R27,
43_index_memory.md); no byte, no check (R86, D26). -/
def State.rangeFault (s : State) (n : Nat) : Option Nat :=
  if 0 < n ∧ 4095 < s.ea (n - 1) then some (max s.i.toNat 4096) else none

/-- The key a register value names, none above 15 (R88). -/
def keyOf (b : Byte) : Option (Fin 16) := if h : b.toNat < 16 then some ⟨b.toNat, h⟩ else none

/-- The hundreds, tens and ones digits of a byte (R82). -/
def decimalDigits (b : Byte) : List Byte :=
  [BitVec.ofNat 8 (b.toNat / 100), BitVec.ofNat 8 (b.toNat / 10 % 10), BitVec.ofNat 8 (b.toNat % 10)]

/-- The address of a digit's sprite, `zext_16(V[x]) * 5` (R81). -/
def fontAddress (b : Byte) : Word := BitVec.ofNat 16 (b.toNat * 5)

/-- `V[0]` to `V[x]` (R83). -/
def State.regsUpTo (s : State) (x : Reg) : List Byte := s.v.toList.take (x.val + 1)

/-- Loading bytes into the registers from `k` up, in ascending order (R84). -/
def loadRegs : List Byte → Nat → Vector Byte 16 → Vector Byte 16
  | [], _, v => v
  | b :: bs, k, v => loadRegs bs (k + 1) (v.setIfInBounds k b)

/-- `(ox + col) mod 64` (R86). -/
def spriteCol (ox : Byte) (col : Nat) : Fin 64 := Fin.ofNat 64 (ox.toNat + col)

/-- `(oy + row) mod 32` (R86). -/
def spriteRow (oy : Byte) (row : Nat) : Fin 32 := Fin.ofNat 32 (oy.toNat + row)

end Sys2Proof.Machine
end

