-- ==== Sys2Proof/Machine/Flags.lean ====
section
/-! DEFINITION. Every value that is written to VF as a flag (spec/10_state.md R9). -/

namespace Sys2Proof.Machine

/-- `cond ? 1 : 0` as a register byte. -/
def flagByte (c : Bool) : Byte := if c then 1#8 else 0#8

/-- The carry of `8xy4`: 1 when the exact sum exceeds 255 (R73). -/
def carryFlag (a b : Byte) : Byte := flagByte (decide (255 < a.toNat + b.toNat))

/-- The no-borrow flag of `8xy5` (with the operands turned round, of `8xy7`): 1 when `a > b`, strictly (R66, R74, R76). -/
def noBorrowFlag (a b : Byte) : Byte := flagByte (decide (b.toNat < a.toNat))

/-- The bit that `8xy6` shifts out, bit 0 (R75). -/
def lowBitFlag (a : Byte) : Byte := a &&& 1#8

/-- The bit that `8xyE` shifts out, bit 7 (R77). -/
def highBitFlag (a : Byte) : Byte := a >>> 7

/-- The collision flag of `Dxyn` (R86). -/
def collisionFlag (hit : Bool) : Byte := flagByte hit

end Sys2Proof.Machine
end

