-- ==== Sys2Proof/Machine/Alu.lean ====
section
/-! DEFINITION. Register loads, arithmetic, logic, shifts and the random byte (spec/42_alu.md). The assignments run in the
order the rules list them, each reading what the ones before it wrote (spec/00_scope.md section 5). -/

namespace Sys2Proof.Machine

/-- `6xkk` (R67). -/
def execLdImm (x : Reg) (kk : Byte) (s : State) : Host.Outcome State Fault Refusal := .next (s.setV x kk)

/-- `7xkk` (R68): modulo 256, no flag. -/
def execAddImm (x : Reg) (kk : Byte) (s : State) : Host.Outcome State Fault Refusal := .next (s.setV x (s.getV x + kk))

/-- `8xy0` (R69). -/
def execLdReg (x y : Reg) (s : State) : Host.Outcome State Fault Refusal := .next (s.setV x (s.getV y))

/-- `8xy1` (R70): VF is not reset. -/
def execOr (x y : Reg) (s : State) : Host.Outcome State Fault Refusal := .next (s.setV x (s.getV x ||| s.getV y))

/-- `8xy2` (R71): VF is not reset. -/
def execAnd (x y : Reg) (s : State) : Host.Outcome State Fault Refusal := .next (s.setV x (s.getV x &&& s.getV y))

/-- `8xy3` (R72): VF is not reset. -/
def execXor (x y : Reg) (s : State) : Host.Outcome State Fault Refusal := .next (s.setV x (s.getV x ^^^ s.getV y))

/-- `8xy4` (R73): the sum first, the carry of the operands last. -/
def execAddReg (x y : Reg) (s : State) : Host.Outcome State Fault Refusal :=
  .next ((s.setV x (s.getV x + s.getV y)).setVF (carryFlag (s.getV x) (s.getV y)))

/-- `8xy5` (R74): the flag first, then the difference of the registers as the flag write left them (D11). -/
def execSub (x y : Reg) (s : State) : Host.Outcome State Fault Refusal :=
  if s.refusesVf [x, y] then raise .unmodelled none (.sub x y) s
  else
    let t := s.setVF (noBorrowFlag (s.getV x) (s.getV y))
    .next (t.setV x (t.getV x - t.getV y))

/-- `8xy6` (R75): the flag first, then `V[x] >> 1`; `y` is ignored but for the word a fault reports. -/
def execShr (x y : Reg) (s : State) : Host.Outcome State Fault Refusal :=
  if s.refusesVf [x] then raise .unmodelled none (.shr x y) s
  else
    let t := s.setVF (lowBitFlag (s.getV x))
    .next (t.setV x (t.getV x >>> 1))

/-- `8xy7` (R76): as `8xy5` with the operands turned round. -/
def execSubn (x y : Reg) (s : State) : Host.Outcome State Fault Refusal :=
  if s.refusesVf [x, y] then raise .unmodelled none (.subn x y) s
  else
    let t := s.setVF (noBorrowFlag (s.getV y) (s.getV x))
    .next (t.setV x (t.getV y - t.getV x))

/-- `8xyE` (R77): the flag first, then `V[x] << 1`; `y` is ignored but for the word a fault reports. -/
def execShl (x y : Reg) (s : State) : Host.Outcome State Fault Refusal :=
  if s.refusesVf [x] then raise .unmodelled none (.shl x y) s
  else
    let t := s.setVF (highBitFlag (s.getV x))
    .next (t.setV x (t.getV x <<< 1))

/-- `Cxkk` (R78): the draw, masked. -/
def execRnd (x : Reg) (kk : Byte) (s : State) : Host.Outcome State Fault Refusal :=
  .next (s.countDraw.setV x (s.draw &&& kk))

end Sys2Proof.Machine
end

