-- ==== Sys2Proof/Machine/ControlFlow.lean ====
section
/-! DEFINITION. Jumps, call, return and the register skips (spec/41_control_flow.md). Every meaning sees `PC` already
advanced to the word after its own (R52). -/

namespace Sys2Proof.Machine

/-- Skip when the condition holds (R56). -/
def State.skipIf (s : State) (c : Bool) : State := if c then s.skip else s

/-- `00EE` (R57). -/
def execRet (s : State) : Host.Outcome State Fault Refusal :=
  match s.pop with
  | none => raise .stackUnderflow none .ret s
  | some (a, t) => .next (t.setPc a)

/-- `0nnn` (R58): a jump; it pushes nothing. -/
def execSys (nnn : BitVec 12) (s : State) : Host.Outcome State Fault Refusal := .next (s.setPc (zextNnn nnn))

/-- `1nnn` (R59). -/
def execJp (nnn : BitVec 12) (s : State) : Host.Outcome State Fault Refusal := .next (s.setPc (zextNnn nnn))

/-- `2nnn` (R60): the return address is the advanced `PC`. -/
def execCall (nnn : BitVec 12) (s : State) : Host.Outcome State Fault Refusal :=
  match s.push s.pc with
  | none => raise .stackOverflow none (.call nnn) s
  | some t => .next (t.setPc (zextNnn nnn))

/-- `3xkk` (R61). -/
def execSeImm (x : Reg) (kk : Byte) (s : State) : Host.Outcome State Fault Refusal := .next (s.skipIf (s.getV x == kk))

/-- `4xkk` (R62). -/
def execSneImm (x : Reg) (kk : Byte) (s : State) : Host.Outcome State Fault Refusal := .next (s.skipIf (s.getV x != kk))

/-- `5xy0` (R63). -/
def execSeReg (x y : Reg) (s : State) : Host.Outcome State Fault Refusal := .next (s.skipIf (s.getV x == s.getV y))

/-- `9xy0` (R64). -/
def execSneReg (x y : Reg) (s : State) : Host.Outcome State Fault Refusal := .next (s.skipIf (s.getV x != s.getV y))

/-- `Bnnn` (R65): `nnn + V[0]`, not reduced to 12 bits (D24). -/
def execJpV0 (nnn : BitVec 12) (s : State) : Host.Outcome State Fault Refusal :=
  .next (s.setPc (zextNnn nnn + zextByte (s.getV 0)))

end Sys2Proof.Machine
end

