-- ==== Sys2Proof/Machine/Display.lean ====
section
/-! DEFINITION. Clearing the framebuffer and drawing a sprite (spec/44_display.md). -/

namespace Sys2Proof.Machine

/-- One sprite bit landing on a pixel (R86): with the framebuffer goes whether any set bit has met a set pixel so far. -/
def drawBit (bit : Bool) (row : Fin 32) (col : Fin 64) (d : Framebuffer × Bool) : Framebuffer × Bool :=
  if bit then (Framebuffer.flip d.1 row col, d.2 || Framebuffer.pixel d.1 row col) else d

/-- One sprite byte from column `col` on, `k` columns to go, bit 7 leftmost (R86, R30). -/
def drawByte (b : Byte) (ox : Byte) (row : Fin 32) (col : Nat) : Nat → Framebuffer × Bool → Framebuffer × Bool
  | 0, d => d
  | k + 1, d => drawByte b ox row (col + 1) k (drawBit (b.getLsbD (7 - col)) row (spriteCol ox col) d)

/-- The rows of a sprite from row `row` on (R86). -/
def drawRows (ox oy : Byte) : List Byte → Nat → Framebuffer × Bool → Framebuffer × Bool
  | [], _, d => d
  | b :: bs, row, d => drawRows ox oy bs (row + 1) (drawByte b ox (spriteRow oy row) 0 8 d)

/-- `00E0` (R85). -/
def execCls (s : State) : Host.Outcome State Fault Refusal := .next ((s.setFb Framebuffer.clear).setDirty true)

/-- `Dxyn` (R86): the origins are read before the flag is written (D12); `dirty` is set whatever changed. -/
def execDrw (x y : Reg) (n : BitVec 4) (s : State) : Host.Outcome State Fault Refusal :=
  if s.refusesVf [x, y] then raise .unmodelled none (.drw x y n) s
  else
    match s.rangeFault n.toNat with
    | some a => raise .memoryOutOfRange (some a) (.drw x y n) s
    | none =>
      let d := drawRows (s.getV x) (s.getV y) (s.readBytes (s.ea 0) n.toNat) 0 (s.fb, false)
      .next (((s.setFb d.1).setVF (collisionFlag d.2)).setDirty true)

end Sys2Proof.Machine
end

