-- ==== Sys2Proof/Machine/IndexMemory.lean ====
section
/-! DEFINITION. The index register and the memory transfers (spec/43_index_memory.md). Every range check stands before the
first write (R7), and no instruction here but the three of `I` changes `I`. -/

namespace Sys2Proof.Machine

/-- `Annn` (R79). -/
def execLdI (nnn : BitVec 12) (s : State) : Host.Outcome State Fault Refusal := .next (s.setI (zextNnn nnn))

/-- `Fx1E` (R80): a 16-bit sum, no flag; past 0xFFFF as `I_ADD_OVERFLOW` says (R5). -/
def execAddIVx (x : Reg) (s : State) : Host.Outcome State Fault Refusal :=
  if 0xFFFF < s.i.toNat + (s.getV x).toNat ∧ s.params.iAddOverflow = .fault then
    raise .indexOverflow none (.addIVx x) s
  else .next (s.setI (BitVec.ofNat 16 (s.i.toNat + (s.getV x).toNat)))

/-- `Fx29` (R81): the whole register times 5, not its low nibble. -/
def execLdFVx (x : Reg) (s : State) : Host.Outcome State Fault Refusal := .next (s.setI (fontAddress (s.getV x)))

/-- `Fx33` (R82). -/
def execLdBVx (x : Reg) (s : State) : Host.Outcome State Fault Refusal :=
  match s.rangeFault 3 with
  | some a => raise .memoryOutOfRange (some a) (.ldBVx x) s
  | none => .next (s.writeBytes (s.ea 0) (decimalDigits (s.getV x)))

/-- `Fx55` (R83). -/
def execLdMemVx (x : Reg) (s : State) : Host.Outcome State Fault Refusal :=
  match s.rangeFault (x.val + 1) with
  | some a => raise .memoryOutOfRange (some a) (.ldMemVx x) s
  | none => .next (s.writeBytes (s.ea 0) (s.regsUpTo x))

/-- `Fx65` (R84). -/
def execLdVxMem (x : Reg) (s : State) : Host.Outcome State Fault Refusal :=
  match s.rangeFault (x.val + 1) with
  | some a => raise .memoryOutOfRange (some a) (.ldVxMem x) s
  | none => .next { s with v := loadRegs (s.readBytes (s.ea 0) (x.val + 1)) 0 s.v }

end Sys2Proof.Machine
end

