-- ==== Sys2Proof/Machine/KeysTimers.lean ====
section
/-! DEFINITION. The key skips, the key wait and the timer transfers (spec/45_keys_timers.md). -/

namespace Sys2Proof.Machine

/-- `Ex9E` (R88): the latch is kept (C6, D14). -/
def execSkp (x : Reg) (s : State) : Host.Outcome State Fault Refusal :=
  match keyOf (s.getV x) with
  | none => raise .keyIndexOutOfRange (some (s.getV x).toNat) (.skp x) s
  | some k => .next (if s.pressed k then s.skip else s)

/-- `ExA1` (R89): not pressed, skip; pressed, clear the whole latch (C3). -/
def execSknp (x : Reg) (s : State) : Host.Outcome State Fault Refusal :=
  match keyOf (s.getV x) with
  | none => raise .keyIndexOutOfRange (some (s.getV x).toNat) (.sknp x) s
  | some k => .next (if s.pressed k then s.clearKeys else s.skip)

/-- `Fx07` (R90): before this cycle's tick. -/
def execLdVxDt (x : Reg) (s : State) : Host.Outcome State Fault Refusal := .next (s.setV x s.dt)

/-- `Fx0A` (R91): the lowest pressed key, the latch cleared; with no key pressed the word is fetched again. -/
def execLdVxK (x : Reg) (s : State) : Host.Outcome State Fault Refusal :=
  match s.firstPressed with
  | some k => .next ((s.setV x (BitVec.ofNat 8 k.val)).clearKeys)
  | none => .next s.rewind

/-- `Fx15` (R92). -/
def execLdDtVx (x : Reg) (s : State) : Host.Outcome State Fault Refusal := .next (s.setDt (s.getV x))

/-- `Fx18` (R93). -/
def execLdStVx (x : Reg) (s : State) : Host.Outcome State Fault Refusal := .next (s.setSt (s.getV x))

end Sys2Proof.Machine
end

