-- ==== Sys2Proof/Machine/Step.lean ====
section
/-! DEFINITION. One cycle (spec/40_cycle.md R49) and placing an instruction where the next one fetches. -/

namespace Sys2Proof.Machine

/-- The cycle of R49: fetch, decode, advance, execute, tick. A fault of the cycle is a next state that is Halted (R94;
log 1); a halted block has no step and answers its record (R54, R112). -/
def step (s : State) : Host.Outcome State Fault Refusal :=
  match s.status with
  | .halted f => .fault (.halted f)
  | .running =>
    match s.fetchInstr with
    | .error f => .next (s.takeFault f)
    | .ok i => finishCycle (exec i s.advance)

/-- `s` with the instruction word `w` of `nbits` bits at its `PC` (log 7). -/
def State.withFetchWord (s : State) (nbits w : Nat) : State :=
  s.storeWordAtPc (BitVec.ofNat 16 (w % 2 ^ nbits))

end Sys2Proof.Machine
end

