-- ==== Sys2Proof/Machine/Commands.lean ====
section
/-! DEFINITION. The host commands (spec/60_exceptions.md R109 to R118): what the host can do between cycles, each atomic
(R34). They stand beside `step`, which is the command `cycle` (log 10). -/

namespace Sys2Proof.Machine

/-- The commands of R110 to R117. -/
inductive Command where
  /-- R110 -/ | new
  /-- R111 -/ | load (bytes : List Byte)
  /-- R112 -/ | cycle
  /-- R113 -/ | readFramebuffer
  /-- R114 -/ | readDirty
  /-- R114 -/ | clearDirty
  /-- R115 -/ | readSoundTimer
  /-- R116 -/ | setKey (k : Nat)
  /-- R117 -/ | clearKeys
  deriving DecidableEq, Repr

/-- What a command returns to the host. -/
inductive Reply where
  /-- the command is done -/ | ok
  /-- a cycle faulted, now or earlier (R94, R112) -/ | fault (f : FaultRecord)
  /-- the command is refused and has changed nothing -/ | refused (r : Refusal)
  /-- the 2048 pixels in the order `row*64 + col` (R113) -/ | framebuffer (bits : List Bool)
  /-- the dirty flag (R114) -/ | dirty (b : Bool)
  /-- the sound timer (R115) -/ | soundTimer (t : Byte)
  deriving DecidableEq, Repr

/-- `LOAD_BASE` (R2). -/
abbrev loadBase : Nat := 0x200

/-- `new()` (R110): a new block in the reset state, of the same parameters; the draws go on (log 4). -/
def hostNew (s : State) : State × Reply := ({ State.construct s.params with draws := s.draws }, .ok)

/-- `load(bytes)` (R111): at most 3584 bytes, to memory from 0x200 up, and nothing else. -/
def hostLoad (bytes : List Byte) (s : State) : State × Reply :=
  if memSize - loadBase < bytes.length then (s, .refused .loadTooLarge)
  else (s.writeBytes loadBase bytes, .ok)

/-- `cycle()` (R112): one cycle, and the fault record if it faulted or the block was halted. -/
def hostCycle (s : State) : State × Reply :=
  match step s with
  | .next t =>
    match t.status with
    | .running => (t, .ok)
    | .halted f => (t, .fault f)
  | .fault (.halted f) => (s, .fault f)
  | .refused r => (s, .refused r)

/-- `read_framebuffer()` (R113): row-major. -/
def hostReadFramebuffer (s : State) : State × Reply :=
  (s, .framebuffer (s.fb.toList.flatMap (fun row => row.toList)))

/-- `read_dirty()` (R114). -/
def hostReadDirty (s : State) : State × Reply := (s, .dirty s.dirty)

/-- `clear_dirty()` (R114). -/
def hostClearDirty (s : State) : State × Reply := (s.setDirty false, .ok)

/-- `read_sound_timer()` (R115). -/
def hostReadSoundTimer (s : State) : State × Reply := (s, .soundTimer s.st)

/-- `set_key(k)` (R116): a key above 15 is refused. -/
def hostSetKey (k : Nat) (s : State) : State × Reply :=
  if h : k < 16 then (s.pressKey ⟨k, h⟩, .ok) else (s, .refused .keyOutOfRange)

/-- `clear_keys()` (R117). -/
def hostClearKeys (s : State) : State × Reply := (s.clearKeys, .ok)

/-- One host command: the block after it and what it returns. -/
def command (c : Command) (s : State) : State × Reply :=
  match c with
  | .new => hostNew s
  | .load bytes => hostLoad bytes s
  | .cycle => hostCycle s
  | .readFramebuffer => hostReadFramebuffer s
  | .readDirty => hostReadDirty s
  | .clearDirty => hostClearDirty s
  | .readSoundTimer => hostReadSoundTimer s
  | .setKey k => hostSetKey k s
  | .clearKeys => hostClearKeys s

/-- A sequence of host commands: the block after the last, and what each returned (R109, R55). -/
def runCommands : List Command → State → State × List Reply
  | [], s => (s, [])
  | c :: cs, s =>
    let r := command c s
    let rest := runCommands cs r.1
    (rest.1, r.2 :: rest.2)

end Sys2Proof.Machine
end

