-- ==== Sys2Proof/Safety.lean ====
section
/-! DEFINITION. The terms the statements are made in: the invariant, the named stop conditions (spec/40_cycle.md R55), the
access matrix (spec/10_state.md R21) and the pixels of a sprite (spec/44_display.md R86). -/

namespace Sys2Proof.Machine

/-- What every reachable state satisfies: canonical memory inside 4096 bytes; `PC` at most 0x10FE (R11); every return
address at most 0x1000, the largest advanced `PC` (R51, R60); a fault record that names the address `PC` still holds (R94). -/
structure Inv (s : State) : Prop where
  memory : Memory.wf s.params.font s.mem
  pc     : s.pc.toNat ≤ 0x10FE
  stack  : ∀ j : Fin 16, s.stack[j].toNat ≤ 0x1000
  halted : ∀ f, s.status = .halted f → f.pc = s.pc

/-- The word at `PC`, of a `PC` whose two bytes are memory (R30, R50). -/
def State.wordAtPc (s : State) : Word := wordOfBytes (s.byte s.pc.toNat) (s.byte (s.pc.toNat + 1))

/-- The word at `PC` lies in memory and is the instruction `i` (R50, R41). -/
def State.fetches (s : State) (i : Instr) : Prop := s.pc.toNat ≤ 4094 ∧ decode s.wordAtPc = .instr i

/-- **Faulted** (R55). -/
def State.faulted (s : State) : Prop := ∃ f, s.status = .halted f

/-- **Parked** (R55): running, and the word at `PC` is `1nnn` with `nnn = PC`. -/
def State.parked (s : State) : Prop :=
  s.status = .running ∧ ∃ nnn : BitVec 12, s.fetches (.jp nnn) ∧ nnn.toNat = s.pc.toNat

/-- **Waiting** (R55): running, the word at `PC` is `Fx0A`, and no key is pressed. -/
def State.waiting (s : State) : Prop :=
  s.status = .running ∧ (∃ x, s.fetches (.ldVxK x)) ∧ ∀ k, s.pressed k = false

/-- The state that a fault of the instruction with the word `w` leaves, seen from `exec`, where `PC` is already 2 past it
(R94, R95). -/
def State.haltedWith (s : State) (kind : FaultKind) (info : Option Nat) (w : Word) : State :=
  { s with
    pc := s.pc - 2#16
    status := .halted { kind := kind, pc := s.pc - 2#16, word := some w, info := info } }

/-! ### The access matrix of R21 -/

/-- The columns of R21 that are not general registers. -/
inductive Element where
  | i | mem | stack | dt | st | key | fb | dirty
  deriving DecidableEq, Repr

/-- Two states hold the same in a column. -/
def Element.same (s t : State) : Element → Prop
  | .i => t.i = s.i
  | .mem => ∀ a, t.byte a = s.byte a
  | .stack => t.stack = s.stack ∧ t.sp = s.sp
  | .dt => t.dt = s.dt
  | .st => t.st = s.st
  | .key => t.key = s.key
  | .fb => t.fb = s.fb
  | .dirty => t.dirty = s.dirty

end Sys2Proof.Machine

namespace Sys2Proof
open Sys2Proof.Machine

/-- The general registers R21 lets an instruction write: `w` under V[x], VF, V[0..x]. -/
def Instr.writesReg : Instr → Reg → Bool
  | .ldImm x _, r | .addImm x _, r | .ldReg x _, r | .or x _, r | .and x _, r | .xor x _, r | .rnd x _, r
  | .ldVxDt x, r | .ldVxK x, r => r == x
  | .addReg x _, r | .sub x _, r | .shr x _, r | .subn x _, r | .shl x _, r => r == x || r == Reg.vf
  | .drw _ _ _, r => r == Reg.vf
  | .ldVxMem x, r => decide (r ≤ x)
  | .cls, _ | .ret, _ | .sys _, _ | .jp _, _ | .call _, _ | .seImm _ _, _ | .sneImm _ _, _ | .seReg _ _, _ | .sneReg _ _, _
  | .ldI _, _ | .jpV0 _, _ | .skp _, _ | .sknp _, _ | .ldDtVx _, _ | .ldStVx _, _ | .addIVx _, _ | .ldFVx _, _
  | .ldBVx _, _ | .ldMemVx _, _ => false

/-- The general registers R21 lets an instruction read: `r` under V[x], V[y], V[0], V[0..x]. -/
def Instr.readsReg : Instr → Reg → Bool
  | .seImm x _, r | .sneImm x _, r | .addImm x _, r | .shr x _, r | .shl x _, r | .skp x, r | .sknp x, r | .ldDtVx x, r
  | .ldStVx x, r | .addIVx x, r | .ldFVx x, r | .ldBVx x, r => r == x
  | .ldReg _ y, r => r == y
  | .seReg x y, r | .sneReg x y, r | .or x y, r | .and x y, r | .xor x y, r | .addReg x y, r | .sub x y, r | .subn x y, r
  | .drw x y _, r => r == x || r == y
  | .jpV0 _, r => r == 0
  | .ldMemVx x, r => decide (r ≤ x)
  | .cls, _ | .ret, _ | .sys _, _ | .jp _, _ | .call _, _ | .ldImm _ _, _ | .ldI _, _ | .rnd _ _, _ | .ldVxDt _, _
  | .ldVxK _, _ | .ldVxMem _, _ => false

/-- The other columns R21 lets an instruction write. -/
def Instr.writesElement : Instr → Element → Bool
  | .cls, e | .drw _ _ _, e => e == .fb || e == .dirty
  | .ret, e | .call _, e => e == .stack
  | .ldI _, e | .addIVx _, e | .ldFVx _, e => e == .i
  | .sknp _, e | .ldVxK _, e => e == .key
  | .ldDtVx _, e => e == .dt
  | .ldStVx _, e => e == .st
  | .ldBVx _, e | .ldMemVx _, e => e == .mem
  | .sys _, _ | .jp _, _ | .seImm _ _, _ | .sneImm _ _, _ | .seReg _ _, _ | .ldImm _ _, _ | .addImm _ _, _ | .ldReg _ _, _
  | .or _ _, _ | .and _ _, _ | .xor _ _, _ | .addReg _ _, _ | .sub _ _, _ | .shr _ _, _ | .subn _ _, _ | .shl _ _, _
  | .sneReg _ _, _ | .jpV0 _, _ | .rnd _ _, _ | .skp _, _ | .ldVxDt _, _ | .ldVxMem _, _ => false

/-- The other columns R21 lets an instruction read. -/
def Instr.readsElement : Instr → Element → Bool
  | .ret, e | .call _, e => e == .stack
  | .drw _ _ _, e => e == .i || e == .mem || e == .fb
  | .skp _, e | .sknp _, e | .ldVxK _, e => e == .key
  | .ldVxDt _, e => e == .dt
  | .addIVx _, e | .ldBVx _, e | .ldMemVx _, e => e == .i
  | .ldVxMem _, e => e == .i || e == .mem
  | .cls, _ | .sys _, _ | .jp _, _ | .seImm _ _, _ | .sneImm _ _, _ | .seReg _ _, _ | .ldImm _ _, _ | .addImm _ _, _
  | .ldReg _ _, _ | .or _ _, _ | .and _ _, _ | .xor _ _, _ | .addReg _ _, _ | .sub _ _, _ | .shr _ _, _ | .subn _ _, _
  | .shl _ _, _ | .sneReg _ _, _ | .ldI _, _ | .jpV0 _, _ | .rnd _ _, _ | .ldDtVx _, _ | .ldStVx _, _ | .ldFVx _, _ => false

end Sys2Proof

namespace Sys2Proof.Machine

/-! ### Sprites -/

/-- Bit `col` of row `row` (0 the leftmost, the topmost) of the sprite at `I` (R86). -/
def State.spriteBit (s : State) (row col : Nat) : Bool := (s.byte (s.i.toNat + row)).getLsbD (7 - col)

/-- A set bit of the `n`-row sprite at `I`, drawn at the origin `(V[x], V[y])`, lands on the pixel (R86). -/
def State.spriteHits (s : State) (x y : Reg) (n : BitVec 4) (r : Fin 32) (c : Fin 64) : Prop :=
  ∃ row col : Nat, row < n.toNat ∧ col < 8 ∧ s.spriteBit row col = true ∧
    ((s.getV y).toNat + row) % 32 = r.val ∧ ((s.getV x).toNat + col) % 64 = c.val

end Sys2Proof.Machine
end

