-- ==== Sys2Proof/Certificates/Slice0/Obligations.lean ====
section
/-! DEFINITION. The statements for the provers, from the numbered rules of spec/. A statement about `exec` sees `PC` advanced by
2 (R52); `exec` answers `.next` when a fault is taken too, so a completion statement says which state it answers. -/

open Sys2Proof Sys2Proof.Machine

/-! ### Encoding -/

/-- R41, R42, R47: no bit of an encoding is dropped: decoding the word, and the bytes, of a well-formed instruction gives it. -/
def Obligations.DecodeOfEncodeIsTheInstruction : Prop :=
  ∀ i : Instr, i.wellFormed = true → decode (encode i) = .instr i ∧
    ∀ rest, decodeBytes (highByte (encode i) :: lowByte (encode i) :: rest) = (.instr i, rest)

/-- R47: a legal word is the one word of one well-formed instruction. -/
def Obligations.EncodeOfDecodeIsTheWord : Prop :=
  ∀ (w : Word) (i : Instr), decode w = .instr i → i.wellFormed = true ∧ encode i = w

/-- R43, R45, and the legal values of `n` in R44: the illegal words are exactly these five sets. -/
def Obligations.IllegalWordsAreTheFiveSets : Prop :=
  ∀ w : Word, (∃ why, decode w = .reject why) ↔
    (w.toNat / 4096 = 5 ∧ w.toNat % 16 ≠ 0) ∨
    (w.toNat / 4096 = 8 ∧ w.toNat % 16 ∈ [0x8, 0x9, 0xA, 0xB, 0xC, 0xD, 0xF]) ∨
    (w.toNat / 4096 = 9 ∧ w.toNat % 16 ≠ 0) ∨
    (w.toNat / 4096 = 0xE ∧ w.toNat % 256 ∉ [0x9E, 0xA1]) ∨
    (w.toNat / 4096 = 0xF ∧ w.toNat % 256 ∉ [0x07, 0x0A, 0x15, 0x18, 0x1E, 0x29, 0x33, 0x55, 0x65])

/-- A few words written out bit by bit from the encoding column of the opcode table (R47). -/
def Obligations.SampleWordsDecode : Prop :=
  decode 0b0000000011101110 = .instr .ret ∧
  decode 0b0011001000110011 = .instr (.seImm 2 0x33) ∧
  decode 0b1000000000010101 = .instr (.sub 0 1) ∧
  decode 0b1111001001010101 = .instr (.ldMemVx 2) ∧
  decode 0b1101000100100010 = .instr (.drw 1 2 2) ∧
  decode 0b1110000110100001 = .instr (.sknp 1)

/-! ### The cycle -/

/-- R49, R51, R52, R53: a running block whose word at `PC` is the instruction `i` runs `exec i` on the state with `PC`
advanced by 2, and ticks both timers unless the instruction has halted it. -/
def Obligations.StepRunsTheDecodedInstruction : Prop :=
  ∀ (s : State) (i : Instr), s.status = .running → s.fetches i →
    step s = (match exec i { s with pc := s.pc + 2#16 } with
      | .next t => .next (match t.status with
          | .running => { t with dt := BitVec.ofNat 8 (t.dt.toNat - 1), st := BitVec.ofNat 8 (t.st.toNat - 1) }
          | .halted _ => t)
      | .fault r => .fault r
      | .refused r => .refused r)

/-- R50: the fetched word is `mem[PC]*256 + mem[PC+1]`; a `PC` above 4094, odd or even, halts with `MemoryOutOfRange`, the
first address above 4095 its info and no word. -/
def Obligations.FetchReadsTheWordOrFaults : Prop :=
  ∀ s : State,
    (s.pc.toNat ≤ 4094 → ∃ w, s.fetchWord = .ok w ∧
      w.toNat = (s.byte s.pc.toNat).toNat * 256 + (s.byte (s.pc.toNat + 1)).toNat) ∧
    (s.status = .running → 4094 < s.pc.toNat →
      ∃ f : FaultRecord, step s = .next { s with status := .halted f } ∧ f.kind = .memoryOutOfRange ∧
      f.pc = s.pc ∧ f.word = none ∧ f.info = some (if 4095 < s.pc.toNat then s.pc.toNat else 4096))

/-- R96: an illegal word halts the block with code 1, its word and its address, and changes nothing else. -/
def Obligations.IllegalWordHaltsTheBlock : Prop :=
  ∀ (s : State) (why : DecodeReject), s.status = .running → s.pc.toNat ≤ 4094 → decode s.wordAtPc = .reject why →
    FaultKind.decodeFailure.code = 1 ∧
    ∃ f : FaultRecord, step s = .next { s with status := .halted f } ∧ f.kind = .decodeFailure ∧
      f.pc = s.pc ∧ f.word = some s.wordAtPc ∧ f.info = none

/-- R54, R112: a cycle is defined exactly when the block is running; a halted one has no step, which `step` answers as a fault
(log 1), and keeps its state. -/
def Obligations.CycleIsDefinedExactlyWhenRunning : Prop :=
  ∀ s : State,
    (s.status = .running → ∃ t, step s = .next t) ∧
    (∀ f, s.status = .halted f → step s = .fault (.halted f) ∧ command .cycle s = (s, .fault f))

/-- R94: a fault keeps exactly the state before its cycle but for the status, and its record, which `cycle` returns, names the
address and the word of the instruction that faulted. -/
def Obligations.FaultsArePrecise : Prop :=
  ∀ (s t : State) (f : FaultRecord), s.status = .running → step s = .next t → t.status = .halted f →
    t = { s with status := .halted f } ∧ f.pc = s.pc ∧
    (s.pc.toNat ≤ 4094 → f.word = some s.wordAtPc) ∧ (4094 < s.pc.toNat → f.word = none) ∧
    command .cycle s = (t, .fault f)

/-- R95's table, R104: which instruction raises which kind, on which condition of the state, and with which info; `exec`
raises no `DecodeFailure`, which is the cycle's own (read with R97 to R102). -/
def Obligations.FaultKindsByInstruction : Prop :=
  ∀ (i : Instr) (s t : State) (f : FaultRecord),
    s.status = .running → exec i s = .next t → t.status = .halted f →
    match f.kind with
    | .decodeFailure => False
    | .stackOverflow => (∃ nnn, i = .call nnn) ∧ s.sp.val = 16 ∧ f.info = none
    | .stackUnderflow => i = .ret ∧ s.sp.val = 0 ∧ f.info = none
    | .memoryOutOfRange => f.info = some (max s.i.toNat 4096) ∧
        ((∃ x, i = .ldBVx x ∧ 4095 < s.i.toNat + 2) ∨
         (∃ x, (i = .ldMemVx x ∨ i = .ldVxMem x) ∧ 4095 < s.i.toNat + x.val) ∨
         (∃ x y n, i = .drw x y n ∧ 0 < n.toNat ∧ 4095 < s.i.toNat + n.toNat - 1))
    | .keyIndexOutOfRange => ∃ x, (i = .skp x ∨ i = .sknp x) ∧ 15 < (s.getV x).toNat ∧ f.info = some (s.getV x).toNat
    | .indexOverflow => s.params.iAddOverflow = .fault ∧ f.info = none ∧
        ∃ x, i = .addIVx x ∧ 0xFFFF < s.i.toNat + (s.getV x).toNat
    | .unmodelled => s.params.vfAlias = .refuse ∧ f.info = none ∧
        ∃ x y, (((i = .sub x y ∨ i = .subn x y ∨ ∃ n, i = .drw x y n) ∧ (x = 15 ∨ y = 15)) ∨
          ((i = .shr x y ∨ i = .shl x y) ∧ x = 15))

/-- R53: both timers go down by 1, floored at 0, at the end of every cycle that does not fault, whatever ran, `Fx0A` without a
key too; `Fx15` and `Fx18` are ticked in their own cycle, `Fx07` reads `DT` before it; a cycle that faults ticks neither. -/
def Obligations.TimersTickOncePerCompletedCycle : Prop :=
  ∀ (s t : State) (i : Instr), s.status = .running → s.fetches i → step s = .next t →
    (t.status = .running →
      t.dt.toNat = (match i with | .ldDtVx x => (s.getV x).toNat | _ => s.dt.toNat) - 1 ∧
      t.st.toNat = (match i with | .ldStVx x => (s.getV x).toNat | _ => s.st.toNat) - 1 ∧
      (∀ x, i = .ldVxDt x → t.getV x = s.dt)) ∧
    (∀ f, t.status = .halted f → t.dt = s.dt ∧ t.st = s.st)

/-! ### Invariants and whole-machine rules -/

/-- The invariant that every step keeps: canonical memory within 4096 bytes (R23), `PC` at most 0x10FE (R11), every return
address at most 0x1000 (R51, R60), and a fault record at `PC` (R94). -/
def Obligations.StepKeepsTheInvariant : Prop :=
  ∀ s t : State, Inv s → step s = .next t → Inv t

/-- The invariant holds after construction, under any parameters (R123). -/
def Obligations.ConstructionMeetsTheInvariant : Prop :=
  (∀ p : Params, Inv (State.construct p)) ∧ Inv State.reset

/-- Any sequence of host commands, cycles among them, keeps the invariant (R109 to R118). -/
def Obligations.HostCommandsKeepTheInvariant : Prop :=
  ∀ (cs : List Command) (s : State), Inv s → Inv (runCommands cs s).1

/-- R18, R103: nothing but construction sets a halted block running again, and its record stays. -/
def Obligations.HaltedForGoodExceptConstruction : Prop :=
  ∀ (cs : List Command) (s : State) (f : FaultRecord), s.status = .halted f → Command.new ∉ cs →
    (runCommands cs s).1.status = .halted f

/-- R20, R21 (write columns): an instruction leaves every register and every column that the matrix does not give it
unchanged; none changes the parameters, and none but `Cxkk` takes a draw. -/
def Obligations.InstructionsWriteOnlyTheirColumns : Prop :=
  ∀ (i : Instr) (s t : State), exec i s = .next t →
    (∀ r, i.writesReg r = false → t.getV r = s.getV r) ∧
    (∀ e, i.writesElement e = false → Element.same s t e) ∧
    t.params = s.params ∧ (t.status = s.status ∨ ∃ f, t.status = .halted f) ∧
    ((∀ x kk, i ≠ .rnd x kk) → t.draws = s.draws)

/-- R21 (read columns): of two states of the invariant that agree on `PC`, the status, the parameters, the draw and what the
matrix lets the instruction read, both go to a next state with the same `PC` and the same fault if any, and each register, column and byte then is the same
in both or unchanged in both. -/
def Obligations.InstructionsReadOnlyTheirColumns : Prop :=
  ∀ (i : Instr) (s₁ s₂ : State), Inv s₁ → Inv s₂ →
    s₁.pc = s₂.pc → s₁.params = s₂.params → s₁.draws = s₂.draws → s₁.status = s₂.status →
    (∀ r, i.readsReg r = true → s₁.getV r = s₂.getV r) →
    (∀ e, i.readsElement e = true → Element.same s₁ s₂ e) →
    ∃ t₁ t₂, exec i s₁ = .next t₁ ∧ exec i s₂ = .next t₂ ∧ t₁.pc = t₂.pc ∧ t₁.status = t₂.status ∧
      (∀ r, t₁.getV r = t₂.getV r ∨ (t₁.getV r = s₁.getV r ∧ t₂.getV r = s₂.getV r)) ∧
      (∀ e, e ≠ .mem → Element.same t₁ t₂ e ∨ (Element.same s₁ t₁ e ∧ Element.same s₂ t₂ e)) ∧
      (∀ a, t₁.byte a = t₂.byte a ∨ (t₁.byte a = s₁.byte a ∧ t₂.byte a = s₂.byte a))

/-- R15: an instruction leaves the latch as it is or clears all 16 flags at once, and only `ExA1` and `Fx0A` clear it. -/
def Obligations.LatchIsClearedWholeOrKept : Prop :=
  ∀ (i : Instr) (s t : State), exec i s = .next t →
    t.key = s.key ∨ ((∀ k, t.pressed k = false) ∧ ∃ x, i = .sknp x ∨ i = .ldVxK x)

/-- R17: `00E0` and every `Dxyn` that is not a fault set `dirty`; no instruction clears it and no other sets it. -/
def Obligations.DirtyIsSetByDisplayInstructionsOnly : Prop :=
  ∀ (i : Instr) (s t : State), s.status = .running → exec i s = .next t →
    t.dirty = (s.dirty || (decide (t.status = .running) &&
      match i with | .cls => true | .drw _ _ _ => true | _ => false))

/-- R55 (Parked), R59: any number of further cycles of a parked block changes only the timers, which run down to 0, and it
stays parked. -/
def Obligations.ParkedChangesOnlyTheTimers : Prop :=
  ∀ (k : Nat) (s : State), s.parked → ∃ t : State, Host.Core.run Sys2Proof.core k s = .next t ∧
    t = { s with dt := t.dt, st := t.st } ∧ t.parked ∧
    t.dt.toNat = s.dt.toNat - k ∧ t.st.toNat = s.st.toNat - k

/-- R55 (Waiting), R91: any number of further cycles of a waiting block changes only the timers, and it stays waiting; a key
that the host sets ends the wait in the next cycle. -/
def Obligations.WaitingChangesOnlyTheTimers : Prop :=
  ∀ (k : Nat) (s : State), s.waiting →
    (∃ t : State, Host.Core.run Sys2Proof.core k s = .next t ∧
      t = { s with dt := t.dt, st := t.st } ∧ t.waiting ∧
      t.dt.toNat = s.dt.toNat - k ∧ t.st.toNat = s.st.toNat - k) ∧
    (∀ q : Nat, q < 16 → ∃ u x, s.fetches (.ldVxK x) ∧ runCommands [.setKey q, .cycle] s = (u, [.ok, .ok]) ∧
      u.pc = s.pc + 2#16 ∧ (u.getV x).toNat = q ∧ ∀ j, u.pressed j = false)

/-- R36: the bytes that `Fx55` writes are what the very next fetch at their address reads. -/
def Obligations.StoredBytesAreFetched : Prop :=
  ∀ (s : State) (x : Reg), Inv s → 1 ≤ x.val → s.i.toNat + x.val ≤ 4095 →
    ∃ t, exec (.ldMemVx x) s = .next t ∧
      State.fetchWord { t with pc := s.i } = .ok (wordOfBytes (s.getV 0) (s.getV 1))

/-! ### Control flow -/

/-- R58, R59: `0nnn` and `1nnn` set `PC` to `nnn` and change nothing else. -/
def Obligations.JumpsSetThePc : Prop :=
  ∀ (s : State) (nnn : BitVec 12), ∃ t, exec (.sys nnn) s = .next t ∧ exec (.jp nnn) s = .next t ∧
    t.pc.toNat = nnn.toNat ∧ t = { s with pc := t.pc }

/-- R65: `Bnnn` sets `PC` to the exact sum of `nnn` and `V[0]` and changes nothing else. -/
def Obligations.IndexedJumpAddsVZero : Prop :=
  ∀ (s : State) (nnn : BitVec 12), ∃ t, exec (.jpV0 nnn) s = .next t ∧
    t.pc.toNat = nnn.toNat + (s.getV 0).toNat ∧ t = { s with pc := t.pc }

/-- R60: `2nnn` pushes the advanced `PC` and jumps; with 16 entries it halts with `StackOverflow`. -/
def Obligations.CallPushesOrOverflows : Prop :=
  ∀ (s : State) (nnn : BitVec 12),
    (∀ h : s.sp.val < 16, ∃ t, exec (.call nnn) s = .next t ∧
      t.stack[s.sp.val] = s.pc ∧ (∀ j : Fin 16, j.val ≠ s.sp.val → t.stack[j] = s.stack[j]) ∧
      t.sp.val = s.sp.val + 1 ∧ t.pc.toNat = nnn.toNat ∧
      t = { s with stack := t.stack, sp := t.sp, pc := t.pc }) ∧
    (s.sp.val = 16 → exec (.call nnn) s = .next (s.haltedWith .stackOverflow none (encode (.call nnn))))

/-- R57: `00EE` lowers `SP` and jumps to the entry there, which keeps its value; with no entry it halts with
`StackUnderflow`. -/
def Obligations.ReturnPopsOrUnderflows : Prop :=
  ∀ s : State,
    (∀ h : 0 < s.sp.val, ∃ t, exec .ret s = .next t ∧
      t.pc = s.stack[s.sp.val - 1]'(by omega) ∧ t.sp.val = s.sp.val - 1 ∧ t = { s with sp := t.sp, pc := t.pc }) ∧
    (s.sp.val = 0 → exec .ret s = .next (s.haltedWith .stackUnderflow none 0x00EE#16))

/-- R57, R60: a call and a return at its target come back to the word after the call, with the depth as it was. -/
def Obligations.ReturnComesBackFromCall : Prop :=
  ∀ (s : State) (nnn : BitVec 12), s.sp.val < 16 → ∃ t u, exec (.call nnn) s = .next t ∧
    exec .ret t.advance = .next u ∧ u.pc = s.pc ∧ u.sp = s.sp ∧ (∀ j : Fin 16, j.val < s.sp.val → u.stack[j] = s.stack[j])

/-- R56, R61, R62: `3xkk` and `4xkk` move `PC` 2 further on equal and on unequal, and change nothing else. -/
def Obligations.ImmediateSkips : Prop :=
  ∀ (s : State) (x : Reg) (kk : Byte),
    exec (.seImm x kk) s = .next { s with pc := if (s.getV x).toNat = kk.toNat then s.pc + 2#16 else s.pc } ∧
    exec (.sneImm x kk) s = .next { s with pc := if (s.getV x).toNat = kk.toNat then s.pc else s.pc + 2#16 }

/-- R63, R64: `5xy0` and `9xy0` move `PC` 2 further on equal and on different registers, and change nothing else. -/
def Obligations.RegisterSkips : Prop :=
  ∀ (s : State) (x y : Reg),
    exec (.seReg x y) s = .next { s with pc := if (s.getV x).toNat = (s.getV y).toNat then s.pc + 2#16 else s.pc } ∧
    exec (.sneReg x y) s = .next { s with pc := if (s.getV x).toNat = (s.getV y).toNat then s.pc else s.pc + 2#16 }

/-! ### Loads, arithmetic, logic -/

/-- R67, R69: `6xkk` and `8xy0` write `kk` and `V[y]` to `V[x]` and change nothing else. -/
def Obligations.LoadsWriteTheirRegister : Prop :=
  ∀ (s : State) (x y : Reg) (kk : Byte),
    (∃ t, exec (.ldImm x kk) s = .next t ∧
      (∀ r, t.getV r = if r = x then kk else s.getV r) ∧ t = { s with v := t.v }) ∧
    (∃ t, exec (.ldReg x y) s = .next t ∧
      (∀ r, t.getV r = if r = x then s.getV y else s.getV r) ∧ t = { s with v := t.v })

/-- R68: `7xkk` adds modulo 256 and writes no flag. -/
def Obligations.AddImmediateWraps : Prop :=
  ∀ (s : State) (x : Reg) (kk : Byte), ∃ t, exec (.addImm x kk) s = .next t ∧
    (∀ r, (t.getV r).toNat = if r = x then ((s.getV x).toNat + kk.toNat) % 256 else (s.getV r).toNat) ∧
    t = { s with v := t.v }

/-- R70, R71, R72: the bitwise operations, bit by bit, write `V[x]` alone; VF is not reset. -/
def Obligations.LogicIsBitwise : Prop :=
  ∀ (s : State) (x y : Reg),
    (∃ t, exec (.or x y) s = .next t ∧ (∀ r k, (t.getV r).getLsbD k =
      if r = x then (s.getV x).getLsbD k || (s.getV y).getLsbD k else (s.getV r).getLsbD k) ∧ t = { s with v := t.v }) ∧
    (∃ t, exec (.and x y) s = .next t ∧ (∀ r k, (t.getV r).getLsbD k =
      if r = x then (s.getV x).getLsbD k && (s.getV y).getLsbD k else (s.getV r).getLsbD k) ∧ t = { s with v := t.v }) ∧
    (∃ t, exec (.xor x y) s = .next t ∧ (∀ r k, (t.getV r).getLsbD k =
      if r = x then ((s.getV x).getLsbD k).xor ((s.getV y).getLsbD k) else (s.getV r).getLsbD k) ∧ t = { s with v := t.v })

/-- R73: `8xy4` writes the sum modulo 256 to `V[x]` and then the carry to VF, which ends as the carry for `x = 0xF` too; both
come from the operands before either write. -/
def Obligations.AddRegistersSetsCarry : Prop :=
  ∀ (s : State) (x y : Reg), ∃ t, exec (.addReg x y) s = .next t ∧
    (∀ r, (t.getV r).toNat =
      if r = 15 then (if 255 < (s.getV x).toNat + (s.getV y).toNat then 1 else 0)
      else if r = x then ((s.getV x).toNat + (s.getV y).toNat) % 256 else (s.getV r).toNat) ∧
    t = { s with v := t.v }

/-- R74: `8xy5` writes VF = (V[x] > V[y]), then V[x] - V[y] of the registers as they are then; every alias of VF; under
`VF_ALIAS = refuse` an operand VF halts with `Unmodelled`. -/
def Obligations.SubtractSetsNoBorrow : Prop :=
  ∀ (s : State) (x y : Reg),
    (s.params.vfAlias = .refuse → x = 15 ∨ y = 15 →
      exec (.sub x y) s = .next (s.haltedWith .unmodelled none (encode (.sub x y)))) ∧
    (s.params.vfAlias = .sequential ∨ (x ≠ 15 ∧ y ≠ 15) →
      ∃ (t : State) (f : Nat), exec (.sub x y) s = .next t ∧
        f = (if (s.getV y).toNat < (s.getV x).toNat then 1 else 0) ∧
        (x ≠ 15 → (t.getV 15).toNat = f) ∧
        (x ≠ 15 → y ≠ 15 → (t.getV x).toNat = ((s.getV x).toNat + 256 - (s.getV y).toNat) % 256) ∧
        (x ≠ 15 → y = 15 → (t.getV x).toNat = ((s.getV x).toNat + 256 - f) % 256) ∧
        (x = 15 → y ≠ 15 → (t.getV 15).toNat = (f + 256 - (s.getV y).toNat) % 256) ∧
        (x = 15 → y = 15 → (t.getV 15).toNat = 0) ∧
        (∀ r, r ≠ x → r ≠ 15 → t.getV r = s.getV r) ∧ t = { s with v := t.v })

/-- R76: `8xy7` writes VF = (V[y] > V[x]), then V[y] - V[x] of the registers as they are then; as R74 otherwise. -/
def Obligations.ReverseSubtractSetsNoBorrow : Prop :=
  ∀ (s : State) (x y : Reg),
    (s.params.vfAlias = .refuse → x = 15 ∨ y = 15 →
      exec (.subn x y) s = .next (s.haltedWith .unmodelled none (encode (.subn x y)))) ∧
    (s.params.vfAlias = .sequential ∨ (x ≠ 15 ∧ y ≠ 15) →
      ∃ (t : State) (f : Nat), exec (.subn x y) s = .next t ∧
        f = (if (s.getV x).toNat < (s.getV y).toNat then 1 else 0) ∧
        (x ≠ 15 → (t.getV 15).toNat = f) ∧
        (x ≠ 15 → y ≠ 15 → (t.getV x).toNat = ((s.getV y).toNat + 256 - (s.getV x).toNat) % 256) ∧
        (x ≠ 15 → y = 15 → (t.getV x).toNat = (f + 256 - (s.getV x).toNat) % 256) ∧
        (x = 15 → y ≠ 15 → (t.getV 15).toNat = ((s.getV y).toNat + 256 - f) % 256) ∧
        (x = 15 → y = 15 → (t.getV 15).toNat = 0) ∧
        (∀ r, r ≠ x → r ≠ 15 → t.getV r = s.getV r) ∧ t = { s with v := t.v })

/-- R75: `8xy6` writes bit 0 of `V[x]` to VF, then halves `V[x]` (for `x = 0xF` VF ends as 0); `y` does not matter; under
`VF_ALIAS = refuse`, `x = 0xF` halts with `Unmodelled`. -/
def Obligations.ShiftRightShiftsOutTheLowBit : Prop :=
  ∀ (s : State) (x y : Reg),
    (s.params.vfAlias = .refuse → x = 15 →
      exec (.shr x y) s = .next (s.haltedWith .unmodelled none (encode (.shr x y)))) ∧
    (s.params.vfAlias = .sequential ∨ x ≠ 15 →
      ∃ t, (∀ y' : Reg, exec (.shr x y') s = .next t) ∧
        (x ≠ 15 → (t.getV 15).toNat = (s.getV x).toNat % 2 ∧ (t.getV x).toNat = (s.getV x).toNat / 2) ∧
        (x = 15 → (t.getV 15).toNat = 0) ∧
        (∀ r, r ≠ x → r ≠ 15 → t.getV r = s.getV r) ∧ t = { s with v := t.v })

/-- R77: `8xyE` writes bit 7 of `V[x]` to VF, then doubles `V[x]` modulo 256 (for `x = 0xF` VF ends as twice its old bit 7);
`y` does not matter; under `VF_ALIAS = refuse`, `x = 0xF` halts with `Unmodelled`. -/
def Obligations.ShiftLeftShiftsOutTheHighBit : Prop :=
  ∀ (s : State) (x y : Reg),
    (s.params.vfAlias = .refuse → x = 15 →
      exec (.shl x y) s = .next (s.haltedWith .unmodelled none (encode (.shl x y)))) ∧
    (s.params.vfAlias = .sequential ∨ x ≠ 15 →
      ∃ t, (∀ y' : Reg, exec (.shl x y') s = .next t) ∧
        (x ≠ 15 → (t.getV 15).toNat = (s.getV x).toNat / 128 ∧ (t.getV x).toNat = (s.getV x).toNat * 2 % 256) ∧
        (x = 15 → (t.getV 15).toNat = (s.getV 15).toNat / 128 * 2) ∧
        (∀ r, r ≠ x → r ≠ 15 → t.getV r = s.getV r) ∧ t = { s with v := t.v })

/-- R78: `Cxkk` writes a draw masked by `kk` to `V[x]`, whatever the draw; `kk = 0` gives 0 for every draw. The draw is the
free value `Config.rand` at the count of draws so far (log 4), and the count goes up by one. -/
def Obligations.RandomByteIsMasked : Prop :=
  ∀ (s : State) (x : Reg) (kk : Byte), ∃ t, exec (.rnd x kk) s = .next t ∧
    (∀ k, (t.getV x).getLsbD k = ((Config.rand s.draws).getLsbD k && kk.getLsbD k)) ∧
    (kk = 0#8 → t.getV x = 0#8) ∧ (kk = 0xFF#8 → t.getV x = Config.rand s.draws) ∧
    (∀ r, r ≠ x → t.getV r = s.getV r) ∧ t = { s with v := t.v, draws := s.draws + 1 }

/-! ### Index register and memory transfer -/

/-- R79, R81: `Annn` loads `I` with `nnn`, `Fx29` with five times the whole of `V[x]`, and nothing else changes. -/
def Obligations.IndexLoads : Prop :=
  ∀ (s : State) (nnn : BitVec 12) (x : Reg),
    (∃ t, exec (.ldI nnn) s = .next t ∧ t.i.toNat = nnn.toNat ∧ t = { s with i := t.i }) ∧
    (∃ t, exec (.ldFVx x) s = .next t ∧ t.i.toNat = (s.getV x).toNat * 5 ∧ t = { s with i := t.i })

/-- R80: `Fx1E` adds `V[x]` to `I` modulo 2^16 and writes no flag; past 0xFFFF under `I_ADD_OVERFLOW = fault` it halts with
`IndexOverflow`. -/
def Obligations.IndexAddWrapsOrFaults : Prop :=
  ∀ (s : State) (x : Reg),
    (s.i.toNat + (s.getV x).toNat ≤ 0xFFFF ∨ s.params.iAddOverflow = .wrap →
      ∃ t, exec (.addIVx x) s = .next t ∧ t.i.toNat = (s.i.toNat + (s.getV x).toNat) % 0x10000 ∧
        t = { s with i := t.i }) ∧
    (0xFFFF < s.i.toNat + (s.getV x).toNat → s.params.iAddOverflow = .fault →
      exec (.addIVx x) s = .next (s.haltedWith .indexOverflow none (encode (.addIVx x))))

/-- R82: `Fx33` stores the decimal digits of `V[x]` at `I`, `I+1`, `I+2` and changes no other byte and nothing else; with
`I + 2` above 4095 it halts before any write. (Canonical memory is a premise: every reachable state has it.) -/
def Obligations.DecimalDigitsAreStored : Prop :=
  ∀ (s : State) (x : Reg), Memory.wf s.params.font s.mem →
    (s.i.toNat + 2 ≤ 4095 → ∃ t, exec (.ldBVx x) s = .next t ∧
      (t.byte s.i.toNat).toNat = (s.getV x).toNat / 100 ∧
      (t.byte (s.i.toNat + 1)).toNat = (s.getV x).toNat / 10 % 10 ∧
      (t.byte (s.i.toNat + 2)).toNat = (s.getV x).toNat % 10 ∧
      (∀ a, a < s.i.toNat ∨ s.i.toNat + 2 < a → t.byte a = s.byte a) ∧ t = { s with mem := t.mem }) ∧
    (4095 < s.i.toNat + 2 →
      exec (.ldBVx x) s = .next (s.haltedWith .memoryOutOfRange (some (max s.i.toNat 4096)) (encode (.ldBVx x))))

/-- R83: `Fx55` stores `V[0]` to `V[x]` at `I` up and changes no other byte, `I` nor anything else; with `I + x` above 4095 it
halts before any write. -/
def Obligations.RegistersAreStored : Prop :=
  ∀ (s : State) (x : Reg), Memory.wf s.params.font s.mem →
    (s.i.toNat + x.val ≤ 4095 → ∃ t, exec (.ldMemVx x) s = .next t ∧
      (∀ r : Reg, r ≤ x → t.byte (s.i.toNat + r.val) = s.getV r) ∧
      (∀ a, a < s.i.toNat ∨ s.i.toNat + x.val < a → t.byte a = s.byte a) ∧ t = { s with mem := t.mem }) ∧
    (4095 < s.i.toNat + x.val →
      exec (.ldMemVx x) s = .next (s.haltedWith .memoryOutOfRange (some (max s.i.toNat 4096)) (encode (.ldMemVx x))))

/-- R84: `Fx65` loads `V[0]` to `V[x]` from `I` up; the registers above `x`, `I`, memory and all else are unchanged; with
`I + x` above 4095 it halts before any write. -/
def Obligations.RegistersAreLoaded : Prop :=
  ∀ (s : State) (x : Reg),
    (s.i.toNat + x.val ≤ 4095 → ∃ t, exec (.ldVxMem x) s = .next t ∧
      (∀ r : Reg, t.getV r = if r ≤ x then s.byte (s.i.toNat + r.val) else s.getV r) ∧ t = { s with v := t.v }) ∧
    (4095 < s.i.toNat + x.val →
      exec (.ldVxMem x) s = .next (s.haltedWith .memoryOutOfRange (some (max s.i.toNat 4096)) (encode (.ldVxMem x))))

/-- R83, R84 (the source's round trip, W5): `Fx55`, then any values in the registers, then `Fx65` at the same `I` restores
`V[0]` to `V[x]`. -/
def Obligations.StoreThenLoadRestoresRegisters : Prop :=
  ∀ (s : State) (x : Reg) (v' : Vector Byte 16), Memory.wf s.params.font s.mem → s.i.toNat + x.val ≤ 4095 →
    ∃ t u, exec (.ldMemVx x) s = .next t ∧ exec (.ldVxMem x) { t with v := v' } = .next u ∧
      ∀ r : Reg, r ≤ x → u.getV r = s.getV r

/-! ### Display -/

/-- R85: `00E0` unsets every pixel and sets `dirty`, and changes nothing else. -/
def Obligations.ClearScreenUnsetsEveryPixel : Prop :=
  ∀ s : State, ∃ t, exec .cls s = .next t ∧ (∀ r c, t.pixel r c = false) ∧ t = { s with fb := t.fb, dirty := true }

/-- R86: `Dxyn` flips exactly the pixels that a set bit of the sprite at `I` lands on, both axes wrapping; VF is 1 exactly when
one of them was set; `dirty` is set; nothing else changes. `n = 0` reads no byte and checks no range. The faults, in the order
of R104. -/
def Obligations.DrawFlipsTheSpritesPixels : Prop :=
  ∀ (s : State) (x y : Reg) (n : BitVec 4),
    (s.params.vfAlias = .refuse → x = 15 ∨ y = 15 →
      exec (.drw x y n) s = .next (s.haltedWith .unmodelled none (encode (.drw x y n)))) ∧
    (s.params.vfAlias = .sequential ∨ (x ≠ 15 ∧ y ≠ 15) → 0 < n.toNat → 4095 < s.i.toNat + n.toNat - 1 →
      exec (.drw x y n) s = .next (s.haltedWith .memoryOutOfRange (some (max s.i.toNat 4096)) (encode (.drw x y n)))) ∧
    (s.params.vfAlias = .sequential ∨ (x ≠ 15 ∧ y ≠ 15) → n.toNat = 0 ∨ s.i.toNat + n.toNat - 1 ≤ 4095 →
      ∃ t, exec (.drw x y n) s = .next t ∧
        (∀ r c, s.spriteHits x y n r c → t.pixel r c = !(s.pixel r c)) ∧
        (∀ r c, ¬ s.spriteHits x y n r c → t.pixel r c = s.pixel r c) ∧
        ((∃ r c, s.spriteHits x y n r c ∧ s.pixel r c = true) → t.getV 15 = 1#8) ∧
        ((∀ r c, s.spriteHits x y n r c → s.pixel r c = false) → t.getV 15 = 0#8) ∧
        (∀ r, r ≠ 15 → t.getV r = s.getV r) ∧
        t = { s with v := t.v, fb := t.fb, dirty := true })

/-- R86, C4: drawing the same sprite twice at an origin that VF does not hold restores every pixel; the first draw sets VF
exactly when a set bit lands on a set pixel, the second exactly when one of them landed on an unset pixel at the first (log 20
says why this is not R87's wording). -/
def Obligations.DrawingTwiceRestoresThePixels : Prop :=
  ∀ (s : State) (x y : Reg) (n : BitVec 4), x ≠ 15 → y ≠ 15 → n.toNat = 0 ∨ s.i.toNat + n.toNat - 1 ≤ 4095 →
    ∃ t u, exec (.drw x y n) s = .next t ∧ exec (.drw x y n) t.advance = .next u ∧
      (∀ r c, u.pixel r c = s.pixel r c) ∧
      (t.getV 15 = 1#8 ↔ ∃ r c, s.spriteHits x y n r c ∧ s.pixel r c = true) ∧
      (u.getV 15 = 1#8 ↔ ∃ r c, s.spriteHits x y n r c ∧ s.pixel r c = false)

/-! ### Keys and timers -/

/-- R88: `Ex9E` skips exactly when key `V[x]` is pressed and changes nothing else, the latch included; above 15 it halts with
`KeyIndexOutOfRange`. -/
def Obligations.SkipIfKeyPressed : Prop :=
  ∀ (s : State) (x : Reg),
    (∀ k : Fin 16, (s.getV x).toNat = k.val →
      exec (.skp x) s = .next { s with pc := if s.pressed k = true then s.pc + 2#16 else s.pc }) ∧
    (15 < (s.getV x).toNat →
      exec (.skp x) s = .next (s.haltedWith .keyIndexOutOfRange (some (s.getV x).toNat) (encode (.skp x))))

/-- R89: `ExA1` skips and keeps the latch when key `V[x]` is not pressed; when it is, no skip and the whole latch is cleared;
above 15 it halts with `KeyIndexOutOfRange`. -/
def Obligations.SkipIfKeyNotPressedElseClear : Prop :=
  ∀ (s : State) (x : Reg),
    (∀ k : Fin 16, (s.getV x).toNat = k.val → s.pressed k = false →
      exec (.sknp x) s = .next { s with pc := s.pc + 2#16 }) ∧
    (∀ k : Fin 16, (s.getV x).toNat = k.val → s.pressed k = true →
      ∃ t, exec (.sknp x) s = .next t ∧ (∀ j, t.pressed j = false) ∧ t = { s with key := t.key }) ∧
    (15 < (s.getV x).toNat →
      exec (.sknp x) s = .next (s.haltedWith .keyIndexOutOfRange (some (s.getV x).toNat) (encode (.sknp x))))

/-- R91: `Fx0A` stores the lowest pressed key in `V[x]` and clears the latch; with no key pressed it only rewinds `PC` by 2. -/
def Obligations.KeyWaitTakesTheLowestKey : Prop :=
  ∀ (s : State) (x : Reg),
    (∀ k : Fin 16, s.pressed k = true → (∀ j, j < k → s.pressed j = false) →
      ∃ t, exec (.ldVxK x) s = .next t ∧
        (∀ r, (t.getV r).toNat = if r = x then k.val else (s.getV r).toNat) ∧
        (∀ j, t.pressed j = false) ∧ t = { s with v := t.v, key := t.key }) ∧
    ((∀ k, s.pressed k = false) → exec (.ldVxK x) s = .next { s with pc := s.pc - 2#16 })

/-- R90, R92, R93: `Fx07` reads `DT` into `V[x]`, `Fx15` and `Fx18` write `V[x]` to `DT` and `ST`, each changing nothing else
and the cycle's tick coming after: seen over a whole cycle, `DT` and `ST` end one lower than what was written, or 0. -/
def Obligations.TimerTransfers : Prop :=
  ∀ (s : State) (x : Reg),
    (∃ t, exec (.ldVxDt x) s = .next t ∧ (∀ r, t.getV r = if r = x then s.dt else s.getV r) ∧ t = { s with v := t.v }) ∧
    (∃ t, exec (.ldDtVx x) s = .next t ∧ t = { s with dt := s.getV x } ∧ t.endCycle.status = t.status ∧
      (s.status = .running → t.endCycle.dt.toNat = (s.getV x).toNat - 1)) ∧
    (∃ t, exec (.ldStVx x) s = .next t ∧ t = { s with st := s.getV x } ∧
      (s.status = .running → t.endCycle.st.toNat = (s.getV x).toNat - 1))

/-! ### Construction and the host commands -/

/-- R123: construction, under any FONT and parameters: every element at its reset value. -/
def Obligations.ConstructionZeroesAllButFontAndPc : Prop :=
  ∀ p : Params, let s := State.construct p
    (∀ a (h : a < 80), s.byte a = p.font[a]) ∧ (∀ a, 80 ≤ a → a < 4096 → s.byte a = 0#8) ∧
    (∀ x, s.getV x = 0#8) ∧ (∀ j : Fin 16, s.stack[j] = 0#16) ∧ (∀ k, s.pressed k = false) ∧
    s.i = 0#16 ∧ s.sp.val = 0 ∧ s.dt = 0#8 ∧ s.st = 0#8 ∧ (∀ r c, s.pixel r c = false) ∧
    s.dirty = false ∧ s.pc = 0x200#16 ∧ s.status = .running ∧ s.params = p

/-- R25, R81: after construction, `Fx29` of a digit `d` leaves `I` at the five bytes FONT gives the digit, whatever FONT is. -/
def Obligations.DigitAddressesPointIntoTheFont : Prop :=
  ∀ (p : Params) (x : Reg) (d row : Nat) (hd : d < 16) (hr : row < 5), ∃ t,
    exec (.ldFVx x) ((State.construct p).setV x (BitVec.ofNat 8 d)) = .next t ∧
      t.i.toNat = 5 * d ∧ t.byte (t.i.toNat + row) = p.font[5 * d + row]'(by omega)

/-- R111: `load` puts byte `i` of an image of at most 3584 bytes at 0x200 + `i` and changes nothing else; a longer one is
refused and changes nothing. -/
def Obligations.LoadCopiesTheImageOrRefuses : Prop :=
  ∀ (s : State) (bytes : List Byte), Memory.wf s.params.font s.mem →
    (bytes.length ≤ 3584 → ∃ t, command (.load bytes) s = (t, .ok) ∧
      (∀ k (h : k < bytes.length), t.byte (0x200 + k) = bytes[k]) ∧
      (∀ a, a < 0x200 ∨ 0x200 + bytes.length ≤ a → t.byte a = s.byte a) ∧ t = { s with mem := t.mem }) ∧
    (3584 < bytes.length → command (.load bytes) s = (s, .refused .loadTooLarge))

/-- R116, R117: `set_key(k)` sets one flag, a key above 15 is refused and changes nothing; `clear_keys` clears every flag. -/
def Obligations.KeyCommandsSetOneOrClearAll : Prop :=
  ∀ (s : State) (k : Nat),
    (∀ h : k < 16, ∃ t, command (.setKey k) s = (t, .ok) ∧ t.pressed ⟨k, h⟩ = true ∧
      (∀ j : Fin 16, j.val ≠ k → t.pressed j = s.pressed j) ∧ t = { s with key := t.key }) ∧
    (15 < k → command (.setKey k) s = (s, .refused .keyOutOfRange)) ∧
    (∃ t, command .clearKeys s = (t, .ok) ∧ (∀ j, t.pressed j = false) ∧ t = { s with key := t.key })

/-- R113, R114, R115: the reading commands return the 2048 pixels in row-major order, `dirty` and `ST` and change nothing;
`clear_dirty` writes 0 to `dirty` alone. -/
def Obligations.ReadCommandsReturnAndChangeNothing : Prop :=
  ∀ s : State,
    (∃ bits, command .readFramebuffer s = (s, .framebuffer bits) ∧ bits.length = 2048 ∧
      ∀ (r : Fin 32) (c : Fin 64), bits[r.val * 64 + c.val]? = some (s.pixel r c)) ∧
    command .readDirty s = (s, .dirty s.dirty) ∧
    command .clearDirty s = ({ s with dirty := false }, .ok) ∧
    command .readSoundTimer s = (s, .soundTimer s.st)
end

