-- ==== Sys2Proof/Laws/State.lean ====
section
/-! SUPPORT. One lemma per field (and per reader of a register, byte, pixel or key) per update of the state. -/

namespace Sys2Proof.Machine

@[simp] theorem State.setVF_eq (s : State) (b : Byte) : s.setVF b = s.setV Reg.vf b := rfl
@[simp] theorem State.advance_eq (s : State) : s.advance = s.setPc (s.pc + 2#16) := rfl
@[simp] theorem State.skip_eq (s : State) : s.skip = s.setPc (s.pc + 2#16) := rfl
@[simp] theorem State.rewind_eq (s : State) : s.rewind = s.setPc (s.pc - 2#16) := rfl

/-! `setV` -/
@[simp] theorem State.setV_v (s : State) (x : Reg) (b : Byte) : (s.setV x b).v = s.v.set x b := rfl
@[simp] theorem State.setV_i (s : State) (x : Reg) (b : Byte) : (s.setV x b).i = s.i := rfl
@[simp] theorem State.setV_pc (s : State) (x : Reg) (b : Byte) : (s.setV x b).pc = s.pc := rfl
@[simp] theorem State.setV_stack (s : State) (x : Reg) (b : Byte) : (s.setV x b).stack = s.stack := rfl
@[simp] theorem State.setV_sp (s : State) (x : Reg) (b : Byte) : (s.setV x b).sp = s.sp := rfl
@[simp] theorem State.setV_dt (s : State) (x : Reg) (b : Byte) : (s.setV x b).dt = s.dt := rfl
@[simp] theorem State.setV_st (s : State) (x : Reg) (b : Byte) : (s.setV x b).st = s.st := rfl
@[simp] theorem State.setV_key (s : State) (x : Reg) (b : Byte) : (s.setV x b).key = s.key := rfl
@[simp] theorem State.setV_fb (s : State) (x : Reg) (b : Byte) : (s.setV x b).fb = s.fb := rfl
@[simp] theorem State.setV_dirty (s : State) (x : Reg) (b : Byte) : (s.setV x b).dirty = s.dirty := rfl
@[simp] theorem State.setV_mem (s : State) (x : Reg) (b : Byte) : (s.setV x b).mem = s.mem := rfl
@[simp] theorem State.setV_status (s : State) (x : Reg) (b : Byte) : (s.setV x b).status = s.status := rfl
@[simp] theorem State.setV_params (s : State) (x : Reg) (b : Byte) : (s.setV x b).params = s.params := rfl
@[simp] theorem State.setV_draws (s : State) (x : Reg) (b : Byte) : (s.setV x b).draws = s.draws := rfl
@[simp] theorem State.setV_byte (s : State) (x : Reg) (b : Byte) (c : Nat) : (s.setV x b).byte c = s.byte c := rfl
@[simp] theorem State.setV_pixel (s : State) (x : Reg) (b : Byte) (row : Fin 32) (col : Fin 64) : (s.setV x b).pixel row col = s.pixel row col := rfl
@[simp] theorem State.setV_pressed (s : State) (x : Reg) (b : Byte) (q : Fin 16) : (s.setV x b).pressed q = s.pressed q := rfl

/-! `setI` -/
@[simp] theorem State.setI_v (s : State) (a : Word) : (s.setI a).v = s.v := rfl
@[simp] theorem State.setI_i (s : State) (a : Word) : (s.setI a).i = a := rfl
@[simp] theorem State.setI_pc (s : State) (a : Word) : (s.setI a).pc = s.pc := rfl
@[simp] theorem State.setI_stack (s : State) (a : Word) : (s.setI a).stack = s.stack := rfl
@[simp] theorem State.setI_sp (s : State) (a : Word) : (s.setI a).sp = s.sp := rfl
@[simp] theorem State.setI_dt (s : State) (a : Word) : (s.setI a).dt = s.dt := rfl
@[simp] theorem State.setI_st (s : State) (a : Word) : (s.setI a).st = s.st := rfl
@[simp] theorem State.setI_key (s : State) (a : Word) : (s.setI a).key = s.key := rfl
@[simp] theorem State.setI_fb (s : State) (a : Word) : (s.setI a).fb = s.fb := rfl
@[simp] theorem State.setI_dirty (s : State) (a : Word) : (s.setI a).dirty = s.dirty := rfl
@[simp] theorem State.setI_mem (s : State) (a : Word) : (s.setI a).mem = s.mem := rfl
@[simp] theorem State.setI_status (s : State) (a : Word) : (s.setI a).status = s.status := rfl
@[simp] theorem State.setI_params (s : State) (a : Word) : (s.setI a).params = s.params := rfl
@[simp] theorem State.setI_draws (s : State) (a : Word) : (s.setI a).draws = s.draws := rfl
@[simp] theorem State.setI_getV (s : State) (a : Word) (r : Reg) : (s.setI a).getV r = s.getV r := rfl
@[simp] theorem State.setI_byte (s : State) (a : Word) (c : Nat) : (s.setI a).byte c = s.byte c := rfl
@[simp] theorem State.setI_pixel (s : State) (a : Word) (row : Fin 32) (col : Fin 64) : (s.setI a).pixel row col = s.pixel row col := rfl
@[simp] theorem State.setI_pressed (s : State) (a : Word) (q : Fin 16) : (s.setI a).pressed q = s.pressed q := rfl

/-! `setPc` -/
@[simp] theorem State.setPc_v (s : State) (a : Word) : (s.setPc a).v = s.v := rfl
@[simp] theorem State.setPc_i (s : State) (a : Word) : (s.setPc a).i = s.i := rfl
@[simp] theorem State.setPc_pc (s : State) (a : Word) : (s.setPc a).pc = a := rfl
@[simp] theorem State.setPc_stack (s : State) (a : Word) : (s.setPc a).stack = s.stack := rfl
@[simp] theorem State.setPc_sp (s : State) (a : Word) : (s.setPc a).sp = s.sp := rfl
@[simp] theorem State.setPc_dt (s : State) (a : Word) : (s.setPc a).dt = s.dt := rfl
@[simp] theorem State.setPc_st (s : State) (a : Word) : (s.setPc a).st = s.st := rfl
@[simp] theorem State.setPc_key (s : State) (a : Word) : (s.setPc a).key = s.key := rfl
@[simp] theorem State.setPc_fb (s : State) (a : Word) : (s.setPc a).fb = s.fb := rfl
@[simp] theorem State.setPc_dirty (s : State) (a : Word) : (s.setPc a).dirty = s.dirty := rfl
@[simp] theorem State.setPc_mem (s : State) (a : Word) : (s.setPc a).mem = s.mem := rfl
@[simp] theorem State.setPc_status (s : State) (a : Word) : (s.setPc a).status = s.status := rfl
@[simp] theorem State.setPc_params (s : State) (a : Word) : (s.setPc a).params = s.params := rfl
@[simp] theorem State.setPc_draws (s : State) (a : Word) : (s.setPc a).draws = s.draws := rfl
@[simp] theorem State.setPc_getV (s : State) (a : Word) (r : Reg) : (s.setPc a).getV r = s.getV r := rfl
@[simp] theorem State.setPc_byte (s : State) (a : Word) (c : Nat) : (s.setPc a).byte c = s.byte c := rfl
@[simp] theorem State.setPc_pixel (s : State) (a : Word) (row : Fin 32) (col : Fin 64) : (s.setPc a).pixel row col = s.pixel row col := rfl
@[simp] theorem State.setPc_pressed (s : State) (a : Word) (q : Fin 16) : (s.setPc a).pressed q = s.pressed q := rfl

/-! `setDt` -/
@[simp] theorem State.setDt_v (s : State) (b : Byte) : (s.setDt b).v = s.v := rfl
@[simp] theorem State.setDt_i (s : State) (b : Byte) : (s.setDt b).i = s.i := rfl
@[simp] theorem State.setDt_pc (s : State) (b : Byte) : (s.setDt b).pc = s.pc := rfl
@[simp] theorem State.setDt_stack (s : State) (b : Byte) : (s.setDt b).stack = s.stack := rfl
@[simp] theorem State.setDt_sp (s : State) (b : Byte) : (s.setDt b).sp = s.sp := rfl
@[simp] theorem State.setDt_dt (s : State) (b : Byte) : (s.setDt b).dt = b := rfl
@[simp] theorem State.setDt_st (s : State) (b : Byte) : (s.setDt b).st = s.st := rfl
@[simp] theorem State.setDt_key (s : State) (b : Byte) : (s.setDt b).key = s.key := rfl
@[simp] theorem State.setDt_fb (s : State) (b : Byte) : (s.setDt b).fb = s.fb := rfl
@[simp] theorem State.setDt_dirty (s : State) (b : Byte) : (s.setDt b).dirty = s.dirty := rfl
@[simp] theorem State.setDt_mem (s : State) (b : Byte) : (s.setDt b).mem = s.mem := rfl
@[simp] theorem State.setDt_status (s : State) (b : Byte) : (s.setDt b).status = s.status := rfl
@[simp] theorem State.setDt_params (s : State) (b : Byte) : (s.setDt b).params = s.params := rfl
@[simp] theorem State.setDt_draws (s : State) (b : Byte) : (s.setDt b).draws = s.draws := rfl
@[simp] theorem State.setDt_getV (s : State) (b : Byte) (r : Reg) : (s.setDt b).getV r = s.getV r := rfl
@[simp] theorem State.setDt_byte (s : State) (b : Byte) (c : Nat) : (s.setDt b).byte c = s.byte c := rfl
@[simp] theorem State.setDt_pixel (s : State) (b : Byte) (row : Fin 32) (col : Fin 64) : (s.setDt b).pixel row col = s.pixel row col := rfl
@[simp] theorem State.setDt_pressed (s : State) (b : Byte) (q : Fin 16) : (s.setDt b).pressed q = s.pressed q := rfl

/-! `setSt` -/
@[simp] theorem State.setSt_v (s : State) (b : Byte) : (s.setSt b).v = s.v := rfl
@[simp] theorem State.setSt_i (s : State) (b : Byte) : (s.setSt b).i = s.i := rfl
@[simp] theorem State.setSt_pc (s : State) (b : Byte) : (s.setSt b).pc = s.pc := rfl
@[simp] theorem State.setSt_stack (s : State) (b : Byte) : (s.setSt b).stack = s.stack := rfl
@[simp] theorem State.setSt_sp (s : State) (b : Byte) : (s.setSt b).sp = s.sp := rfl
@[simp] theorem State.setSt_dt (s : State) (b : Byte) : (s.setSt b).dt = s.dt := rfl
@[simp] theorem State.setSt_st (s : State) (b : Byte) : (s.setSt b).st = b := rfl
@[simp] theorem State.setSt_key (s : State) (b : Byte) : (s.setSt b).key = s.key := rfl
@[simp] theorem State.setSt_fb (s : State) (b : Byte) : (s.setSt b).fb = s.fb := rfl
@[simp] theorem State.setSt_dirty (s : State) (b : Byte) : (s.setSt b).dirty = s.dirty := rfl
@[simp] theorem State.setSt_mem (s : State) (b : Byte) : (s.setSt b).mem = s.mem := rfl
@[simp] theorem State.setSt_status (s : State) (b : Byte) : (s.setSt b).status = s.status := rfl
@[simp] theorem State.setSt_params (s : State) (b : Byte) : (s.setSt b).params = s.params := rfl
@[simp] theorem State.setSt_draws (s : State) (b : Byte) : (s.setSt b).draws = s.draws := rfl
@[simp] theorem State.setSt_getV (s : State) (b : Byte) (r : Reg) : (s.setSt b).getV r = s.getV r := rfl
@[simp] theorem State.setSt_byte (s : State) (b : Byte) (c : Nat) : (s.setSt b).byte c = s.byte c := rfl
@[simp] theorem State.setSt_pixel (s : State) (b : Byte) (row : Fin 32) (col : Fin 64) : (s.setSt b).pixel row col = s.pixel row col := rfl
@[simp] theorem State.setSt_pressed (s : State) (b : Byte) (q : Fin 16) : (s.setSt b).pressed q = s.pressed q := rfl

/-! `tick` -/
@[simp] theorem State.tick_v (s : State) : s.tick.v = s.v := rfl
@[simp] theorem State.tick_i (s : State) : s.tick.i = s.i := rfl
@[simp] theorem State.tick_pc (s : State) : s.tick.pc = s.pc := rfl
@[simp] theorem State.tick_stack (s : State) : s.tick.stack = s.stack := rfl
@[simp] theorem State.tick_sp (s : State) : s.tick.sp = s.sp := rfl
@[simp] theorem State.tick_dt (s : State) : s.tick.dt = tickDown s.dt := rfl
@[simp] theorem State.tick_st (s : State) : s.tick.st = tickDown s.st := rfl
@[simp] theorem State.tick_key (s : State) : s.tick.key = s.key := rfl
@[simp] theorem State.tick_fb (s : State) : s.tick.fb = s.fb := rfl
@[simp] theorem State.tick_dirty (s : State) : s.tick.dirty = s.dirty := rfl
@[simp] theorem State.tick_mem (s : State) : s.tick.mem = s.mem := rfl
@[simp] theorem State.tick_status (s : State) : s.tick.status = s.status := rfl
@[simp] theorem State.tick_params (s : State) : s.tick.params = s.params := rfl
@[simp] theorem State.tick_draws (s : State) : s.tick.draws = s.draws := rfl
@[simp] theorem State.tick_getV (s : State) (r : Reg) : s.tick.getV r = s.getV r := rfl
@[simp] theorem State.tick_byte (s : State) (c : Nat) : s.tick.byte c = s.byte c := rfl
@[simp] theorem State.tick_pixel (s : State) (row : Fin 32) (col : Fin 64) : s.tick.pixel row col = s.pixel row col := rfl
@[simp] theorem State.tick_pressed (s : State) (q : Fin 16) : s.tick.pressed q = s.pressed q := rfl

/-! `countDraw` -/
@[simp] theorem State.countDraw_v (s : State) : s.countDraw.v = s.v := rfl
@[simp] theorem State.countDraw_i (s : State) : s.countDraw.i = s.i := rfl
@[simp] theorem State.countDraw_pc (s : State) : s.countDraw.pc = s.pc := rfl
@[simp] theorem State.countDraw_stack (s : State) : s.countDraw.stack = s.stack := rfl
@[simp] theorem State.countDraw_sp (s : State) : s.countDraw.sp = s.sp := rfl
@[simp] theorem State.countDraw_dt (s : State) : s.countDraw.dt = s.dt := rfl
@[simp] theorem State.countDraw_st (s : State) : s.countDraw.st = s.st := rfl
@[simp] theorem State.countDraw_key (s : State) : s.countDraw.key = s.key := rfl
@[simp] theorem State.countDraw_fb (s : State) : s.countDraw.fb = s.fb := rfl
@[simp] theorem State.countDraw_dirty (s : State) : s.countDraw.dirty = s.dirty := rfl
@[simp] theorem State.countDraw_mem (s : State) : s.countDraw.mem = s.mem := rfl
@[simp] theorem State.countDraw_status (s : State) : s.countDraw.status = s.status := rfl
@[simp] theorem State.countDraw_params (s : State) : s.countDraw.params = s.params := rfl
@[simp] theorem State.countDraw_draws (s : State) : s.countDraw.draws = s.draws + 1 := rfl
@[simp] theorem State.countDraw_getV (s : State) (r : Reg) : s.countDraw.getV r = s.getV r := rfl
@[simp] theorem State.countDraw_byte (s : State) (c : Nat) : s.countDraw.byte c = s.byte c := rfl
@[simp] theorem State.countDraw_pixel (s : State) (row : Fin 32) (col : Fin 64) : s.countDraw.pixel row col = s.pixel row col := rfl
@[simp] theorem State.countDraw_pressed (s : State) (q : Fin 16) : s.countDraw.pressed q = s.pressed q := rfl

/-! `writeByte` -/
@[simp] theorem State.writeByte_v (s : State) (a : Nat) (b : Byte) : (s.writeByte a b).v = s.v := rfl
@[simp] theorem State.writeByte_i (s : State) (a : Nat) (b : Byte) : (s.writeByte a b).i = s.i := rfl
@[simp] theorem State.writeByte_pc (s : State) (a : Nat) (b : Byte) : (s.writeByte a b).pc = s.pc := rfl
@[simp] theorem State.writeByte_stack (s : State) (a : Nat) (b : Byte) : (s.writeByte a b).stack = s.stack := rfl
@[simp] theorem State.writeByte_sp (s : State) (a : Nat) (b : Byte) : (s.writeByte a b).sp = s.sp := rfl
@[simp] theorem State.writeByte_dt (s : State) (a : Nat) (b : Byte) : (s.writeByte a b).dt = s.dt := rfl
@[simp] theorem State.writeByte_st (s : State) (a : Nat) (b : Byte) : (s.writeByte a b).st = s.st := rfl
@[simp] theorem State.writeByte_key (s : State) (a : Nat) (b : Byte) : (s.writeByte a b).key = s.key := rfl
@[simp] theorem State.writeByte_fb (s : State) (a : Nat) (b : Byte) : (s.writeByte a b).fb = s.fb := rfl
@[simp] theorem State.writeByte_dirty (s : State) (a : Nat) (b : Byte) : (s.writeByte a b).dirty = s.dirty := rfl
@[simp] theorem State.writeByte_mem (s : State) (a : Nat) (b : Byte) : (s.writeByte a b).mem = Memory.store s.params.font s.mem a b := rfl
@[simp] theorem State.writeByte_status (s : State) (a : Nat) (b : Byte) : (s.writeByte a b).status = s.status := rfl
@[simp] theorem State.writeByte_params (s : State) (a : Nat) (b : Byte) : (s.writeByte a b).params = s.params := rfl
@[simp] theorem State.writeByte_draws (s : State) (a : Nat) (b : Byte) : (s.writeByte a b).draws = s.draws := rfl
@[simp] theorem State.writeByte_getV (s : State) (a : Nat) (b : Byte) (r : Reg) : (s.writeByte a b).getV r = s.getV r := rfl
@[simp] theorem State.writeByte_pixel (s : State) (a : Nat) (b : Byte) (row : Fin 32) (col : Fin 64) : (s.writeByte a b).pixel row col = s.pixel row col := rfl
@[simp] theorem State.writeByte_pressed (s : State) (a : Nat) (b : Byte) (q : Fin 16) : (s.writeByte a b).pressed q = s.pressed q := rfl

/-! `pressKey` -/
@[simp] theorem State.pressKey_v (s : State) (k : Fin 16) : (s.pressKey k).v = s.v := rfl
@[simp] theorem State.pressKey_i (s : State) (k : Fin 16) : (s.pressKey k).i = s.i := rfl
@[simp] theorem State.pressKey_pc (s : State) (k : Fin 16) : (s.pressKey k).pc = s.pc := rfl
@[simp] theorem State.pressKey_stack (s : State) (k : Fin 16) : (s.pressKey k).stack = s.stack := rfl
@[simp] theorem State.pressKey_sp (s : State) (k : Fin 16) : (s.pressKey k).sp = s.sp := rfl
@[simp] theorem State.pressKey_dt (s : State) (k : Fin 16) : (s.pressKey k).dt = s.dt := rfl
@[simp] theorem State.pressKey_st (s : State) (k : Fin 16) : (s.pressKey k).st = s.st := rfl
@[simp] theorem State.pressKey_key (s : State) (k : Fin 16) : (s.pressKey k).key = s.key.set k true := rfl
@[simp] theorem State.pressKey_fb (s : State) (k : Fin 16) : (s.pressKey k).fb = s.fb := rfl
@[simp] theorem State.pressKey_dirty (s : State) (k : Fin 16) : (s.pressKey k).dirty = s.dirty := rfl
@[simp] theorem State.pressKey_mem (s : State) (k : Fin 16) : (s.pressKey k).mem = s.mem := rfl
@[simp] theorem State.pressKey_status (s : State) (k : Fin 16) : (s.pressKey k).status = s.status := rfl
@[simp] theorem State.pressKey_params (s : State) (k : Fin 16) : (s.pressKey k).params = s.params := rfl
@[simp] theorem State.pressKey_draws (s : State) (k : Fin 16) : (s.pressKey k).draws = s.draws := rfl
@[simp] theorem State.pressKey_getV (s : State) (k : Fin 16) (r : Reg) : (s.pressKey k).getV r = s.getV r := rfl
@[simp] theorem State.pressKey_byte (s : State) (k : Fin 16) (c : Nat) : (s.pressKey k).byte c = s.byte c := rfl
@[simp] theorem State.pressKey_pixel (s : State) (k : Fin 16) (row : Fin 32) (col : Fin 64) : (s.pressKey k).pixel row col = s.pixel row col := rfl

/-! `clearKeys` -/
@[simp] theorem State.clearKeys_v (s : State) : s.clearKeys.v = s.v := rfl
@[simp] theorem State.clearKeys_i (s : State) : s.clearKeys.i = s.i := rfl
@[simp] theorem State.clearKeys_pc (s : State) : s.clearKeys.pc = s.pc := rfl
@[simp] theorem State.clearKeys_stack (s : State) : s.clearKeys.stack = s.stack := rfl
@[simp] theorem State.clearKeys_sp (s : State) : s.clearKeys.sp = s.sp := rfl
@[simp] theorem State.clearKeys_dt (s : State) : s.clearKeys.dt = s.dt := rfl
@[simp] theorem State.clearKeys_st (s : State) : s.clearKeys.st = s.st := rfl
@[simp] theorem State.clearKeys_key (s : State) : s.clearKeys.key = Vector.replicate 16 false := rfl
@[simp] theorem State.clearKeys_fb (s : State) : s.clearKeys.fb = s.fb := rfl
@[simp] theorem State.clearKeys_dirty (s : State) : s.clearKeys.dirty = s.dirty := rfl
@[simp] theorem State.clearKeys_mem (s : State) : s.clearKeys.mem = s.mem := rfl
@[simp] theorem State.clearKeys_status (s : State) : s.clearKeys.status = s.status := rfl
@[simp] theorem State.clearKeys_params (s : State) : s.clearKeys.params = s.params := rfl
@[simp] theorem State.clearKeys_draws (s : State) : s.clearKeys.draws = s.draws := rfl
@[simp] theorem State.clearKeys_getV (s : State) (r : Reg) : s.clearKeys.getV r = s.getV r := rfl
@[simp] theorem State.clearKeys_byte (s : State) (c : Nat) : s.clearKeys.byte c = s.byte c := rfl
@[simp] theorem State.clearKeys_pixel (s : State) (row : Fin 32) (col : Fin 64) : s.clearKeys.pixel row col = s.pixel row col := rfl

/-! `setFb` -/
@[simp] theorem State.setFb_v (s : State) (f : Framebuffer) : (s.setFb f).v = s.v := rfl
@[simp] theorem State.setFb_i (s : State) (f : Framebuffer) : (s.setFb f).i = s.i := rfl
@[simp] theorem State.setFb_pc (s : State) (f : Framebuffer) : (s.setFb f).pc = s.pc := rfl
@[simp] theorem State.setFb_stack (s : State) (f : Framebuffer) : (s.setFb f).stack = s.stack := rfl
@[simp] theorem State.setFb_sp (s : State) (f : Framebuffer) : (s.setFb f).sp = s.sp := rfl
@[simp] theorem State.setFb_dt (s : State) (f : Framebuffer) : (s.setFb f).dt = s.dt := rfl
@[simp] theorem State.setFb_st (s : State) (f : Framebuffer) : (s.setFb f).st = s.st := rfl
@[simp] theorem State.setFb_key (s : State) (f : Framebuffer) : (s.setFb f).key = s.key := rfl
@[simp] theorem State.setFb_fb (s : State) (f : Framebuffer) : (s.setFb f).fb = f := rfl
@[simp] theorem State.setFb_dirty (s : State) (f : Framebuffer) : (s.setFb f).dirty = s.dirty := rfl
@[simp] theorem State.setFb_mem (s : State) (f : Framebuffer) : (s.setFb f).mem = s.mem := rfl
@[simp] theorem State.setFb_status (s : State) (f : Framebuffer) : (s.setFb f).status = s.status := rfl
@[simp] theorem State.setFb_params (s : State) (f : Framebuffer) : (s.setFb f).params = s.params := rfl
@[simp] theorem State.setFb_draws (s : State) (f : Framebuffer) : (s.setFb f).draws = s.draws := rfl
@[simp] theorem State.setFb_getV (s : State) (f : Framebuffer) (r : Reg) : (s.setFb f).getV r = s.getV r := rfl
@[simp] theorem State.setFb_byte (s : State) (f : Framebuffer) (c : Nat) : (s.setFb f).byte c = s.byte c := rfl
@[simp] theorem State.setFb_pressed (s : State) (f : Framebuffer) (q : Fin 16) : (s.setFb f).pressed q = s.pressed q := rfl

/-! `setDirty` -/
@[simp] theorem State.setDirty_v (s : State) (b : Bool) : (s.setDirty b).v = s.v := rfl
@[simp] theorem State.setDirty_i (s : State) (b : Bool) : (s.setDirty b).i = s.i := rfl
@[simp] theorem State.setDirty_pc (s : State) (b : Bool) : (s.setDirty b).pc = s.pc := rfl
@[simp] theorem State.setDirty_stack (s : State) (b : Bool) : (s.setDirty b).stack = s.stack := rfl
@[simp] theorem State.setDirty_sp (s : State) (b : Bool) : (s.setDirty b).sp = s.sp := rfl
@[simp] theorem State.setDirty_dt (s : State) (b : Bool) : (s.setDirty b).dt = s.dt := rfl
@[simp] theorem State.setDirty_st (s : State) (b : Bool) : (s.setDirty b).st = s.st := rfl
@[simp] theorem State.setDirty_key (s : State) (b : Bool) : (s.setDirty b).key = s.key := rfl
@[simp] theorem State.setDirty_fb (s : State) (b : Bool) : (s.setDirty b).fb = s.fb := rfl
@[simp] theorem State.setDirty_dirty (s : State) (b : Bool) : (s.setDirty b).dirty = b := rfl
@[simp] theorem State.setDirty_mem (s : State) (b : Bool) : (s.setDirty b).mem = s.mem := rfl
@[simp] theorem State.setDirty_status (s : State) (b : Bool) : (s.setDirty b).status = s.status := rfl
@[simp] theorem State.setDirty_params (s : State) (b : Bool) : (s.setDirty b).params = s.params := rfl
@[simp] theorem State.setDirty_draws (s : State) (b : Bool) : (s.setDirty b).draws = s.draws := rfl
@[simp] theorem State.setDirty_getV (s : State) (b : Bool) (r : Reg) : (s.setDirty b).getV r = s.getV r := rfl
@[simp] theorem State.setDirty_byte (s : State) (b : Bool) (c : Nat) : (s.setDirty b).byte c = s.byte c := rfl
@[simp] theorem State.setDirty_pixel (s : State) (b : Bool) (row : Fin 32) (col : Fin 64) : (s.setDirty b).pixel row col = s.pixel row col := rfl
@[simp] theorem State.setDirty_pressed (s : State) (b : Bool) (q : Fin 16) : (s.setDirty b).pressed q = s.pressed q := rfl

/-! `takeFault` -/
@[simp] theorem State.takeFault_v (s : State) (f : FaultRecord) : (s.takeFault f).v = s.v := rfl
@[simp] theorem State.takeFault_i (s : State) (f : FaultRecord) : (s.takeFault f).i = s.i := rfl
@[simp] theorem State.takeFault_pc (s : State) (f : FaultRecord) : (s.takeFault f).pc = f.pc := rfl
@[simp] theorem State.takeFault_stack (s : State) (f : FaultRecord) : (s.takeFault f).stack = s.stack := rfl
@[simp] theorem State.takeFault_sp (s : State) (f : FaultRecord) : (s.takeFault f).sp = s.sp := rfl
@[simp] theorem State.takeFault_dt (s : State) (f : FaultRecord) : (s.takeFault f).dt = s.dt := rfl
@[simp] theorem State.takeFault_st (s : State) (f : FaultRecord) : (s.takeFault f).st = s.st := rfl
@[simp] theorem State.takeFault_key (s : State) (f : FaultRecord) : (s.takeFault f).key = s.key := rfl
@[simp] theorem State.takeFault_fb (s : State) (f : FaultRecord) : (s.takeFault f).fb = s.fb := rfl
@[simp] theorem State.takeFault_dirty (s : State) (f : FaultRecord) : (s.takeFault f).dirty = s.dirty := rfl
@[simp] theorem State.takeFault_mem (s : State) (f : FaultRecord) : (s.takeFault f).mem = s.mem := rfl
@[simp] theorem State.takeFault_status (s : State) (f : FaultRecord) : (s.takeFault f).status = .halted f := rfl
@[simp] theorem State.takeFault_params (s : State) (f : FaultRecord) : (s.takeFault f).params = s.params := rfl
@[simp] theorem State.takeFault_draws (s : State) (f : FaultRecord) : (s.takeFault f).draws = s.draws := rfl
@[simp] theorem State.takeFault_getV (s : State) (f : FaultRecord) (r : Reg) : (s.takeFault f).getV r = s.getV r := rfl
@[simp] theorem State.takeFault_byte (s : State) (f : FaultRecord) (c : Nat) : (s.takeFault f).byte c = s.byte c := rfl
@[simp] theorem State.takeFault_pixel (s : State) (f : FaultRecord) (row : Fin 32) (col : Fin 64) : (s.takeFault f).pixel row col = s.pixel row col := rfl
@[simp] theorem State.takeFault_pressed (s : State) (f : FaultRecord) (q : Fin 16) : (s.takeFault f).pressed q = s.pressed q := rfl

end Sys2Proof.Machine
end

