-- ==== Sys2Proof/Laws/Memory.lean ====
section
/-! SUPPORT. What the memory operations do, once: reading after writing, and the canonical form, which every one keeps. -/

namespace Sys2Proof.Machine

/-! ### Registers, keys, pixels -/

@[simp] theorem State.setV_getV (s : State) (x : Reg) (b : Byte) (r : Reg) :
    (s.setV x b).getV r = if r = x then b else s.getV r := by
  simp only [State.getV, State.setV, Fin.getElem_fin, Vector.getElem_set, Fin.ext_iff, eq_comm]

@[simp] theorem State.clearKeys_pressed (s : State) (k : Fin 16) : s.clearKeys.pressed k = false := by
  simp [State.pressed, State.clearKeys]

@[simp] theorem State.pressKey_pressed (s : State) (k q : Fin 16) :
    (s.pressKey k).pressed q = (decide (q = k) || s.pressed q) := by
  simp only [State.pressed, State.pressKey, Fin.getElem_fin, Vector.getElem_set, Fin.ext_iff]
  by_cases h : (q : Nat) = k
  · simp [h]
  · simp [h, Ne.symm h]

theorem Framebuffer.pixel_flip (f : Framebuffer) (row : Fin 32) (col : Fin 64) (r : Fin 32) (c : Fin 64) :
    Framebuffer.pixel (Framebuffer.flip f row col) r c
      = (Framebuffer.pixel f r c ^^ decide (r = row ∧ c = col)) := by
  simp only [Framebuffer.pixel, Framebuffer.flip, Fin.getElem_fin, Vector.getElem_set, Fin.ext_iff]
  by_cases hr : (row : Nat) = r
  · by_cases hc : (col : Nat) = c
    · simp [hr, hc]
    · simp [hr, hc, Ne.symm hc]
  · simp [hr, Ne.symm hr]

@[simp] theorem Framebuffer.pixel_clear (r : Fin 32) (c : Fin 64) :
    Framebuffer.pixel Framebuffer.clear r c = false := by
  simp [Framebuffer.pixel, Framebuffer.clear]

/-! ### One byte of memory -/

theorem Memory.byte_entry (font : Font) (a : Nat) (b : Byte) (m : Memory) (c : Nat)
    (h : ∀ p ∈ m, a < p.1) : Memory.byte font (Memory.entry font a b m) c
      = if c = a then b else Memory.byte font m c := by
  have absent : ∀ m : Memory, (∀ p ∈ m, a < p.1) → Memory.byte font m a = Memory.unlisted font a := by
    intro m
    induction m with
    | nil => intro _; rfl
    | cons p m ih =>
      intro h
      have hp := h p (by simp)
      simp only [Memory.byte, if_neg (show ¬ p.1 = a by omega)]
      exact ih fun q hq => h q (by simp [hq])
  unfold Memory.entry
  split
  · rename_i hb
    split
    · rename_i hc; rw [hc, absent m h, hb]
    · rfl
  · simp only [Memory.byte, eq_comm]

/-- A canonical memory's tail is canonical, and its head lies below it. -/
theorem Memory.wf_cons (font : Font) (k : Nat) (c : Byte) (m : Memory) : Memory.wf font ((k, c) :: m) ↔
    (∀ p ∈ m, k < p.1) ∧ k < memSize ∧ c ≠ Memory.unlisted font k ∧ Memory.wf font m := by
  simp only [Memory.wf, List.pairwise_cons, List.mem_cons, forall_eq_or_imp]
  constructor
  · rintro ⟨⟨h1, h2⟩, ⟨h3, h4⟩, h5⟩; exact ⟨h1, h3, h4, h2, h5⟩
  · rintro ⟨h1, h3, h4, h2, h5⟩; exact ⟨⟨h1, h2⟩, ⟨h3, h4⟩, h5⟩

theorem Memory.wf_entry (font : Font) (a : Nat) (b : Byte) (m : Memory) (ha : a < memSize)
    (h : ∀ p ∈ m, a < p.1) (hm : Memory.wf font m) : Memory.wf font (Memory.entry font a b m) := by
  unfold Memory.entry
  split
  · exact hm
  · rename_i hb; exact (Memory.wf_cons ..).2 ⟨h, ha, hb, hm⟩

theorem Memory.mem_entry {font : Font} {a : Nat} {b : Byte} {m : Memory} {p : Host.Cell}
    (h : p ∈ Memory.entry font a b m) : p.1 = a ∨ p ∈ m := by
  unfold Memory.entry at h
  split at h
  · exact .inr h
  · rcases List.mem_cons.1 h with rfl | h
    · exact .inl rfl
    · exact .inr h

theorem Memory.mem_store {font : Font} {a : Nat} {b : Byte} {p : Host.Cell} :
    ∀ {m : Memory}, p ∈ Memory.store font m a b → p.1 = a ∨ p ∈ m
  | [], h => Memory.mem_entry h
  | (k, c) :: m, h => by
    unfold Memory.store at h
    split at h
    · exact Memory.mem_entry h
    · split at h
      · exact (Memory.mem_entry h).imp_right (List.mem_cons_of_mem _)
      · rcases List.mem_cons.1 h with rfl | h
        · exact .inr (by simp)
        · exact (Memory.mem_store h).imp_right (List.mem_cons_of_mem _)

/-- Writing one byte keeps the canonical form. -/
theorem Memory.wf_store (font : Font) (a : Nat) (b : Byte) (ha : a < memSize) :
    ∀ m : Memory, Memory.wf font m → Memory.wf font (Memory.store font m a b)
  | [], h => Memory.wf_entry font a b [] ha (by simp) h
  | (k, c) :: m, h => by
    obtain ⟨hk, hkm, hc, hm⟩ := (Memory.wf_cons ..).1 h
    unfold Memory.store
    split
    · rename_i hak
      refine Memory.wf_entry font a b _ ha ?_ h
      intro p hp
      rcases List.mem_cons.1 hp with rfl | hp
      · exact hak
      · exact hak.trans (hk p hp)
    · split
      · rename_i hak; subst hak; exact Memory.wf_entry font a b m ha hk hm
      · refine (Memory.wf_cons ..).2 ⟨?_, hkm, hc, Memory.wf_store font a b ha m hm⟩
        intro p hp
        rcases Memory.mem_store hp with h | h
        · omega
        · exact hk p h

/-- Reading after writing one byte, in a canonical memory. -/
theorem Memory.byte_store (font : Font) (a : Nat) (b : Byte) (c : Nat) :
    ∀ m : Memory, Memory.wf font m →
      Memory.byte font (Memory.store font m a b) c = if c = a then b else Memory.byte font m c
  | [], _ => Memory.byte_entry font a b [] c (by simp)
  | (k, d) :: m, h => by
    obtain ⟨hk, _, _, hm⟩ := (Memory.wf_cons ..).1 h
    unfold Memory.store
    split
    · rename_i hak
      refine Memory.byte_entry font a b _ c ?_
      intro p hp
      rcases List.mem_cons.1 hp with rfl | hp
      · exact hak
      · exact hak.trans (hk p hp)
    · split
      · rename_i hak
        subst hak
        rw [Memory.byte_entry font a b m c hk]
        simp only [Memory.byte, eq_comm]
        split <;> rfl
      · simp only [Memory.byte, Memory.byte_store font a b c m hm]
        by_cases hkc : k = c
        · have : c ≠ a := by omega
          simp [hkc, this]
        · simp [hkc]

/-- A byte that memory lists at its resting value is not listed. -/
theorem Memory.byte_unlisted (font : Font) (a : Nat) : Memory.byte font [] a = Memory.unlisted font a := rfl

/-! ### Runs of bytes -/

@[simp] theorem State.readBytes_length (s : State) (a n : Nat) : (s.readBytes a n).length = n := by
  induction n generalizing a with
  | zero => rfl
  | succ n ih => simp [State.readBytes, ih]

/-- Byte `j` of a run is the byte at its address. -/
theorem State.readBytes_getElem (s : State) (a n j : Nat) (h : j < (s.readBytes a n).length) :
    (s.readBytes a n)[j] = s.byte (a + j) := by
  induction n generalizing a j with
  | zero => simp [State.readBytes] at h
  | succ n ih =>
    cases j with
    | zero => rfl
    | succ j =>
      simp only [State.readBytes, List.getElem_cons_succ]
      rw [ih, Nat.add_right_comm]; rfl

/-- Writing a run changes memory alone. -/
theorem State.writeBytes_eq (s : State) (a : Nat) (bs : List Byte) :
    s.writeBytes a bs = { s with mem := (s.writeBytes a bs).mem } := by
  induction bs generalizing s a with
  | nil => rfl
  | cons b bs ih => rw [State.writeBytes, ih]; rfl

/-- Writing a run inside memory keeps the canonical form. -/
theorem State.writeBytes_wf (s : State) (a : Nat) (bs : List Byte) (ha : a + bs.length ≤ memSize)
    (hm : Memory.wf s.params.font s.mem) :
    Memory.wf s.params.font (s.writeBytes a bs).mem := by
  induction bs generalizing s a with
  | nil => exact hm
  | cons b bs ih =>
    simp only [List.length_cons] at ha
    exact ih (s.writeByte a b) (a + 1) (by omega) (Memory.wf_store _ _ _ (by omega) _ hm)

/-- Reading after writing a run, in a canonical memory: the run's own bytes, every other byte as before. -/
theorem State.writeBytes_byte (s : State) (a : Nat) (bs : List Byte) (ha : a + bs.length ≤ memSize)
    (hm : Memory.wf s.params.font s.mem) (c : Nat) :
    (s.writeBytes a bs).byte c
      = if h : a ≤ c ∧ c < a + bs.length then bs[c - a] else s.byte c := by
  induction bs generalizing s a with
  | nil => simp [State.writeBytes]
  | cons b bs ih =>
    simp only [List.length_cons] at ha
    rw [State.writeBytes, ih (s.writeByte a b) (a + 1) (by omega) (Memory.wf_store _ _ _ (by omega) _ hm)]
    have hw : (s.writeByte a b).byte c = if c = a then b else s.byte c := Memory.byte_store _ _ _ _ _ hm
    by_cases h1 : c = a
    · subst h1; simp [hw]
    · by_cases h2 : a + 1 ≤ c ∧ c < a + 1 + bs.length
      · have h3 : a ≤ c ∧ c < a + (bs.length + 1) := by omega
        have h4 : c - a = c - (a + 1) + 1 := by omega
        simp only [List.length_cons, dif_pos h2, dif_pos h3, h4, List.getElem_cons_succ]
      · have h3 : ¬ (a ≤ c ∧ c < a + (bs.length + 1)) := by omega
        rw [dif_neg h2, dif_neg (by simpa using h3), hw, if_neg h1]

/-- Loading a run of bytes into the registers: register `r` takes byte `r - k`, every other register keeps its value. -/
theorem loadRegs_getElem (bs : List Byte) (k : Nat) (v : Vector Byte 16) (r : Nat) (hr : r < 16) :
    (loadRegs bs k v)[r] = if h : k ≤ r ∧ r < k + bs.length then bs[r - k] else v[r] := by
  induction bs generalizing k v with
  | nil => simp [loadRegs]
  | cons b bs ih =>
    rw [loadRegs, ih, Vector.getElem_setIfInBounds]
    by_cases h1 : k = r
    · subst h1; simp
    · by_cases h2 : k + 1 ≤ r ∧ r < k + 1 + bs.length
      · have h3 : k ≤ r ∧ r < k + (bs.length + 1) := by omega
        have h4 : r - k = r - (k + 1) + 1 := by omega
        simp only [List.length_cons, dif_pos h2, dif_pos h3, h4, List.getElem_cons_succ]
      · have h3 : ¬ (k ≤ r ∧ r < k + (bs.length + 1)) := by omega
        rw [dif_neg h2, dif_neg (by simpa using h3), if_neg h1]

end Sys2Proof.Machine
end

