-- ==== Sys2Proof/Laws/Operands.lean ====
section
/-! SUPPORT. What the operand forms, the flags, the stack and the latch scan give, once for each. -/

namespace Sys2Proof.Machine

@[simp] theorem zextNnn_toNat (nnn : BitVec 12) : (zextNnn nnn).toNat = nnn.toNat := by
  have := nnn.isLt
  simp [zextNnn]; omega

@[simp] theorem zextByte_toNat (b : Byte) : (zextByte b).toNat = b.toNat := by
  have := b.isLt
  simp [zextByte]; omega

@[simp] theorem fontAddress_toNat (b : Byte) : (fontAddress b).toNat = b.toNat * 5 := by
  have := b.isLt
  simp [fontAddress]; omega

@[simp] theorem flagByte_toNat (c : Bool) : (flagByte c).toNat = if c then 1 else 0 := by
  cases c <;> rfl

@[simp] theorem tickDown_toNat (t : Byte) : (tickDown t).toNat = t.toNat - 1 := by
  have := t.isLt
  unfold tickDown
  split <;> simp [BitVec.toNat_sub] <;> omega

/-- The range check passes exactly when every byte of the run is below 4096. -/
theorem State.rangeFault_eq_none (s : State) (n : Nat) : s.rangeFault n = none ↔ n = 0 ∨ s.i.toNat + n ≤ memSize := by
  simp only [State.rangeFault, State.ea, memSize]
  split <;> simp <;> omega

/-- The range check fails exactly when some byte of the run is above 4095, and reports `max(I, 4096)`. -/
theorem State.rangeFault_eq_some (s : State) (n a : Nat) :
    s.rangeFault n = some a ↔ 0 < n ∧ memSize < s.i.toNat + n ∧ a = max s.i.toNat 4096 := by
  simp only [State.rangeFault, State.ea, memSize]
  split <;> simp <;> omega

theorem keyOf_eq_some (b : Byte) (k : Fin 16) : keyOf b = some k ↔ b.toNat = k.val := by
  have := k.isLt
  unfold keyOf
  split
  · simp [Fin.ext_iff]
  · simp; omega

theorem keyOf_eq_none (b : Byte) : keyOf b = none ↔ 15 < b.toNat := by
  unfold keyOf
  split <;> simp <;> omega

theorem State.push_eq_none (s : State) (a : Word) : s.push a = none ↔ s.sp.val = 16 := by
  have := s.sp.isLt
  unfold State.push
  split <;> simp <;> omega

/-- A push stores at `stack[SP]` and raises `SP`. -/
theorem State.push_of_lt (s : State) (a : Word) (h : s.sp.val < 16) :
    s.push a = some { s with stack := s.stack.set s.sp.val a, sp := ⟨s.sp.val + 1, by omega⟩ } := by
  simp [State.push, h]

theorem State.pop_eq_none (s : State) : s.pop = none ↔ s.sp.val = 0 := by
  unfold State.pop
  split <;> simp <;> omega

/-- A pop reads the top entry and lowers `SP`; the entry stays in its slot. -/
theorem State.pop_of_pos (s : State) (h : 0 < s.sp.val) :
    s.pop = some (s.stack[s.sp.val - 1]'(by omega), { s with sp := ⟨s.sp.val - 1, by omega⟩ }) := by
  simp [State.pop, h]

/-- The latch scan answers a key exactly when it is the lowest pressed. -/
theorem State.firstPressed_eq_some (s : State) (k : Fin 16) :
    s.firstPressed = some k ↔ s.pressed k = true ∧ ∀ j, j < k → s.pressed j = false := by
  unfold State.firstPressed
  constructor
  · intro h
    obtain ⟨hk, as, bs, hl, hlow⟩ := List.find?_eq_some_iff_append.1 h
    refine ⟨hk, fun j hj => ?_⟩
    have hsorted : (List.finRange 16).Pairwise (· < ·) := List.pairwise_lt_finRange 16
    have hmem : j ∈ as ++ k :: bs := hl ▸ List.mem_finRange j
    rw [hl, List.pairwise_append, List.pairwise_cons] at hsorted
    rcases List.mem_append.1 hmem with h | h
    · simpa using hlow j h
    · rcases List.mem_cons.1 h with rfl | h
      · exact absurd hj (lt_irrefl _)
      · exact absurd (hsorted.2.1.1 j h) (not_lt.2 hj.le)
  · rintro ⟨hk, hlow⟩
    cases hf : (List.finRange 16).find? s.pressed with
    | none => exact absurd hk (by simpa using List.find?_eq_none.1 hf k (List.mem_finRange k))
    | some q =>
      obtain ⟨hq, as, bs, hl, hq'⟩ := List.find?_eq_some_iff_append.1 hf
      have hsorted : (List.finRange 16).Pairwise (· < ·) := List.pairwise_lt_finRange 16
      have hmem : k ∈ as ++ q :: bs := hl ▸ List.mem_finRange k
      rw [hl, List.pairwise_append, List.pairwise_cons] at hsorted
      rcases List.mem_append.1 hmem with h | h
      · exact absurd hk (by simpa using hq' k h)
      · rcases List.mem_cons.1 h with rfl | h
        · rfl
        · exact absurd hq (by simpa using hlow q (hsorted.2.1.1 k h))

/-- The latch scan answers nothing exactly when no key is pressed. -/
theorem State.firstPressed_eq_none (s : State) : s.firstPressed = none ↔ ∀ k, s.pressed k = false := by
  simp [State.firstPressed, List.find?_eq_none]

theorem State.regsUpTo_length (s : State) (x : Reg) : (s.regsUpTo x).length = x.val + 1 := by
  simp [State.regsUpTo]

theorem State.regsUpTo_getElem (s : State) (x : Reg) (r : Nat) (h : r < (s.regsUpTo x).length) :
    (s.regsUpTo x)[r] = s.getV ⟨r, by rw [State.regsUpTo_length] at h; omega⟩ := by
  simp [State.regsUpTo, State.getV]

end Sys2Proof.Machine
end

