-- ==== Sys2Proof/Laws/Cycle.lean ====
section
/-! SUPPORT. What a cycle can do, once: every fact about `step` follows from `step_next_cases`. -/

namespace Sys2Proof.Machine

theorem State.memRead_eq (s : State) (a : Nat) : s.memRead a = if a ≤ 4095 then some (s.byte a) else none := by
  simp only [State.memRead, memSize]
  split <;> split <;> first | rfl | omega

/-- The fetch of a word in memory. -/
theorem State.fetchWord_of_le (s : State) (h : s.pc.toNat ≤ 4094) : s.fetchWord = .ok s.wordAtPc := by
  simp [State.fetchWord, State.memRead_eq, State.wordAtPc, show s.pc.toNat ≤ 4095 by omega, show s.pc.toNat + 1 ≤ 4095 by omega]

/-- The fetch of a word that is not all in memory. -/
theorem State.fetchWord_of_gt (s : State) (h : 4094 < s.pc.toNat) :
    s.fetchWord = .error (s.fetchFault (max s.pc.toNat 4096)) := by
  by_cases h' : s.pc.toNat = 4095
  · simp [State.fetchWord, State.memRead_eq, h']
  · have : max s.pc.toNat 4096 = s.pc.toNat := by omega
    simp [State.fetchWord, State.memRead_eq, show ¬ s.pc.toNat ≤ 4095 by omega, this]

/-- Fetching and decoding gives `i` exactly when the word at `PC` is in memory and is `i`. -/
theorem State.fetchInstr_eq_ok (s : State) (i : Instr) : s.fetchInstr = .ok i ↔ s.fetches i := by
  unfold State.fetchInstr State.fetches
  by_cases h : s.pc.toNat ≤ 4094
  · rw [State.fetchWord_of_le s h]
    dsimp only
    cases hd : decode s.wordAtPc <;> simp [h]
  · rw [State.fetchWord_of_gt s (by omega)]
    simp [h]

/-- Fetching and decoding fails in one of two ways. -/
theorem State.fetchInstr_eq_error (s : State) (f : FaultRecord) : s.fetchInstr = .error f ↔
    (4094 < s.pc.toNat ∧ f = s.fetchFault (max s.pc.toNat 4096)) ∨
    (s.pc.toNat ≤ 4094 ∧ (∃ why, decode s.wordAtPc = .reject why) ∧
      f = { kind := .decodeFailure, pc := s.pc, word := some s.wordAtPc, info := none }) := by
  unfold State.fetchInstr
  by_cases h : s.pc.toNat ≤ 4094
  · rw [State.fetchWord_of_le s h]
    dsimp only
    cases hd : decode s.wordAtPc <;> simp [h, Nat.not_lt.2 h, eq_comm]
  · rw [State.fetchWord_of_gt s (by omega)]
    simp [h, Nat.lt_of_not_le h, eq_comm]

theorem finishCycle_eq_next (o : Host.Outcome State Fault Refusal) (t : State) :
    finishCycle o = .next t ↔ ∃ u, o = .next u ∧ t = u.endCycle := by
  cases o <;> simp [finishCycle, eq_comm]

theorem State.endCycle_of_running (s : State) (h : s.status = .running) : s.endCycle = s.tick := by
  simp [State.endCycle, h]

theorem State.endCycle_of_halted (s : State) {f : FaultRecord} (h : s.status = .halted f) : s.endCycle = s := by
  simp [State.endCycle, h]

@[simp] theorem State.endCycle_status (s : State) : s.endCycle.status = s.status := by
  unfold State.endCycle; split <;> simp_all

@[simp] theorem State.endCycle_pc (s : State) : s.endCycle.pc = s.pc := by
  unfold State.endCycle; split <;> rfl

@[simp] theorem State.endCycle_mem (s : State) : s.endCycle.mem = s.mem := by
  unfold State.endCycle; split <;> rfl

@[simp] theorem State.endCycle_params (s : State) : s.endCycle.params = s.params := by
  unfold State.endCycle; split <;> rfl

@[simp] theorem State.endCycle_stack (s : State) : s.endCycle.stack = s.stack := by
  unfold State.endCycle; split <;> rfl

theorem step_of_halted (s : State) {f : FaultRecord} (h : s.status = .halted f) : step s = .fault (.halted f) := by
  simp [step, h]

theorem step_of_fetches (s : State) (i : Instr) (hr : s.status = .running) (hf : s.fetches i) :
    step s = finishCycle (exec i s.advance) := by
  simp [step, hr, (State.fetchInstr_eq_ok s i).2 hf]

theorem step_of_fetch_error (s : State) (f : FaultRecord) (hr : s.status = .running) (hf : s.fetchInstr = .error f) :
    step s = .next (s.takeFault f) := by
  simp [step, hr, hf]

/-- Everything a step that answers a next state can have done: taken a fault of the fetch or of the decoder, or run the
fetched instruction on the state with `PC` advanced. -/
theorem step_next_cases {s t : State} (h : step s = .next t) : s.status = .running ∧
    ((∃ f, s.fetchInstr = .error f ∧ t = s.takeFault f) ∨
     (∃ i u, s.fetches i ∧ exec i s.advance = .next u ∧ t = u.endCycle)) := by
  unfold step at h
  split at h
  · cases h
  · rename_i hr
    refine ⟨hr, ?_⟩
    split at h
    · rename_i f hf
      exact .inl ⟨f, hf, by injection h with h; exact h.symm⟩
    · rename_i i hf
      obtain ⟨u, hu, rfl⟩ := (finishCycle_eq_next _ _).1 h
      exact .inr ⟨i, u, (State.fetchInstr_eq_ok s i).1 hf, hu, rfl⟩

/-- A fault of the instruction with the word `encode i`, raised before any write. -/
theorem raise_eq (kind : FaultKind) (info : Option Nat) (i : Instr) (s : State) :
    raise kind info i s = .next (s.haltedWith kind info (encode i)) := rfl

/-- A host command's cycle is a step. -/
theorem hostCycle_of_next {s t : State} (h : step s = .next t) : (hostCycle s).1 = t := by
  unfold hostCycle; rw [h]; dsimp; split <;> rfl

theorem hostCycle_of_halted (s : State) {f : FaultRecord} (h : s.status = .halted f) : hostCycle s = (s, .fault f) := by
  unfold hostCycle; rw [step_of_halted s h]

end Sys2Proof.Machine
end

