-- ==== Sys2Proof/Laws/Display.lean ====
section
/-! SUPPORT. What drawing does to a pixel and to the collision flag, bit by bit, byte by byte and for a whole sprite. -/

namespace Sys2Proof.Machine

/-- Bit `j` of the byte `b`, drawn from column `ox` on, is set and lands in column `c` (R86). -/
def byteHits (b ox : Byte) (j : Nat) (c : Fin 64) : Prop := b.getLsbD (7 - j) = true ∧ spriteCol ox j = c

/-- A pixel whose bit is flipped an odd number of times: the parity of a list of conditions. -/
theorem drawBit_pixel (bit : Bool) (row : Fin 32) (col : Fin 64) (d : Framebuffer × Bool) (r : Fin 32) (c : Fin 64) :
    Framebuffer.pixel (drawBit bit row col d).1 r c
      = (Framebuffer.pixel d.1 r c ^^ (bit && decide (r = row ∧ c = col))) := by
  unfold drawBit
  cases bit
  · simp
  · simp [Framebuffer.pixel_flip]

theorem drawBit_hit (bit : Bool) (row : Fin 32) (col : Fin 64) (d : Framebuffer × Bool) :
    (drawBit bit row col d).2 = (d.2 || (bit && Framebuffer.pixel d.1 row col)) := by
  unfold drawBit
  cases bit <;> simp

/-- Two of the eight columns of a sprite byte are different pixels (R87). -/
theorem spriteCol_inj (ox : Byte) {j k : Nat} (hj : j < 8) (hk : k < 8) (h : spriteCol ox j = spriteCol ox k) : j = k := by
  simp only [spriteCol, Fin.ofNat, Fin.ext_iff] at h
  omega

/-- Two of the rows of a sprite are different rows of pixels (R87). -/
theorem spriteRow_inj (oy : Byte) {j k : Nat} (hj : j < 16) (hk : k < 16) (h : spriteRow oy j = spriteRow oy k) : j = k := by
  simp only [spriteRow, Fin.ofNat, Fin.ext_iff] at h
  omega

/-- A sprite byte from column `col` on flips exactly the pixels of its row that a set bit lands on, and notes whether one of
them was set. -/
theorem drawByte_spec (b ox : Byte) (row : Fin 32) (k col : Nat) (hc : col + k = 8) (d : Framebuffer × Bool) :
    (∀ r c, (r = row ∧ ∃ j, col ≤ j ∧ j < 8 ∧ byteHits b ox j c) →
      Framebuffer.pixel (drawByte b ox row col k d).1 r c = !(Framebuffer.pixel d.1 r c)) ∧
    (∀ r c, ¬ (r = row ∧ ∃ j, col ≤ j ∧ j < 8 ∧ byteHits b ox j c) →
      Framebuffer.pixel (drawByte b ox row col k d).1 r c = Framebuffer.pixel d.1 r c) ∧
    ((drawByte b ox row col k d).2 = true ↔
      d.2 = true ∨ ∃ c j, col ≤ j ∧ j < 8 ∧ byteHits b ox j c ∧ Framebuffer.pixel d.1 row c = true) := by
  induction k generalizing col d with
  | zero =>
    refine ⟨?_, ?_, ?_⟩
    · rintro r c ⟨_, j, h1, h2, _⟩; omega
    · intro r c _; rfl
    · constructor
      · exact .inl
      · rintro (h | ⟨c, j, h1, h2, _⟩)
        · exact h
        · omega
  | succ k ih =>
    obtain ⟨i1, i2, i3⟩ := ih (col + 1) (by omega) (drawBit (b.getLsbD (7 - col)) row (spriteCol ox col) d)
    have key : ∀ c j, col + 1 ≤ j → j < 8 → byteHits b ox j c → c ≠ spriteCol ox col := by
      rintro c j h1 h2 ⟨_, rfl⟩ h
      have := spriteCol_inj ox h2 (by omega) h
      omega
    refine ⟨?_, ?_, ?_⟩
    · rintro r c ⟨rfl, j, h1, h2, hj⟩
      by_cases hjc : j = col
      · subst hjc
        obtain ⟨hb, hcol⟩ := hj
        rw [drawByte, i2 r c (fun h => by
          obtain ⟨_, q, q1, q2, q3⟩ := h
          exact key c q q1 q2 q3 hcol.symm), drawBit_pixel]
        simp [hb, hcol]
      · have hj' : col + 1 ≤ j := by omega
        rw [drawByte, i1 r c ⟨rfl, j, hj', h2, hj⟩, drawBit_pixel]
        simp [key c j hj' h2 hj]
    · intro r c h
      rw [drawByte, i2 r c (fun ⟨hr, q, q1, q2, q3⟩ => h ⟨hr, q, by omega, q2, q3⟩), drawBit_pixel]
      have : ¬ (b.getLsbD (7 - col) = true ∧ r = row ∧ c = spriteCol ox col) := by
        rintro ⟨hb, hr, hcol⟩
        exact h ⟨hr, col, le_refl _, by omega, hb, hcol.symm⟩
      by_cases hb : b.getLsbD (7 - col) = true
      · have : ¬ (r = row ∧ c = spriteCol ox col) := fun h' => this ⟨hb, h'⟩
        simp [this]
      · simp [hb]
    · rw [drawByte, i3, drawBit_hit]
      constructor
      · rintro (h | ⟨c, j, h1, h2, hj, hp⟩)
        · rcases Bool.or_eq_true_iff.1 h with h | h
          · exact .inl h
          · obtain ⟨hb, hp⟩ := Bool.and_eq_true_iff.1 h
            exact .inr ⟨spriteCol ox col, col, le_refl _, by omega, ⟨hb, rfl⟩, hp⟩
        · rw [drawBit_pixel] at hp
          simp only [key c j h1 h2 hj, and_false, decide_false, Bool.and_false, Bool.xor_false] at hp
          exact .inr ⟨c, j, by omega, h2, hj, hp⟩
      · rintro (h | ⟨c, j, h1, h2, hj, hp⟩)
        · exact .inl (by simp [h])
        · by_cases hjc : j = col
          · subst hjc
            obtain ⟨hb, rfl⟩ := hj
            exact .inl (by simp [hb, hp])
          · have hj' : col + 1 ≤ j := by omega
            refine .inr ⟨c, j, hj', h2, hj, ?_⟩
            rw [drawBit_pixel]
            simp [key c j hj' h2 hj, hp]

/-- A set bit of the sprite `bs`, whose first byte is row `row`, lands on the pixel (R86). -/
def bytesHit (ox oy : Byte) (bs : List Byte) (row : Nat) (r : Fin 32) (c : Fin 64) : Prop :=
  ∃ (k : Nat) (h : k < bs.length) (j : Nat), j < 8 ∧ r = spriteRow oy (row + k) ∧ byteHits bs[k] ox j c

theorem bytesHit_cons (ox oy b : Byte) (bs : List Byte) (row : Nat) (r : Fin 32) (c : Fin 64) :
    bytesHit ox oy (b :: bs) row r c ↔
      (r = spriteRow oy row ∧ ∃ j, 0 ≤ j ∧ j < 8 ∧ byteHits b ox j c) ∨ bytesHit ox oy bs (row + 1) r c := by
  constructor
  · rintro ⟨k, hk, j, hj, hr, hb⟩
    cases k with
    | zero => exact .inl ⟨hr, j, by omega, hj, hb⟩
    | succ k =>
      refine .inr ⟨k, by simpa using hk, j, hj, ?_, hb⟩
      rw [hr]; congr 1; omega
  · rintro (⟨hr, j, _, hj, hb⟩ | ⟨k, hk, j, hj, hr, hb⟩)
    · exact ⟨0, by simp, j, hj, hr, hb⟩
    · refine ⟨k + 1, by simpa using hk, j, hj, ?_, hb⟩
      rw [hr]; congr 1; omega

/-- A sprite of at most 15 rows flips exactly the pixels that its set bits land on, and notes whether one of them was set:
no pixel is visited twice (R86, R87). -/
theorem drawRows_spec (ox oy : Byte) (bs : List Byte) (row : Nat) (hrow : row + bs.length < 16) (d : Framebuffer × Bool) :
    (∀ r c, bytesHit ox oy bs row r c →
      Framebuffer.pixel (drawRows ox oy bs row d).1 r c = !(Framebuffer.pixel d.1 r c)) ∧
    (∀ r c, ¬ bytesHit ox oy bs row r c →
      Framebuffer.pixel (drawRows ox oy bs row d).1 r c = Framebuffer.pixel d.1 r c) ∧
    ((drawRows ox oy bs row d).2 = true ↔
      d.2 = true ∨ ∃ r c, bytesHit ox oy bs row r c ∧ Framebuffer.pixel d.1 r c = true) := by
  induction bs generalizing row d with
  | nil =>
    refine ⟨?_, fun _ _ _ => rfl, ?_⟩
    · rintro r c ⟨k, hk, _⟩; simp at hk
    · constructor
      · exact .inl
      · rintro (h | ⟨r, c, ⟨k, hk, _⟩, _⟩)
        · exact h
        · simp at hk
  | cons b bs ih =>
    simp only [List.length_cons] at hrow
    obtain ⟨i1, i2, i3⟩ := ih (row + 1) (by omega) (drawByte b ox (spriteRow oy row) 0 8 d)
    obtain ⟨b1, b2, b3⟩ := drawByte_spec b ox (spriteRow oy row) 8 0 rfl d
    have key : ∀ r c, bytesHit ox oy bs (row + 1) r c → r ≠ spriteRow oy row := by
      rintro r c ⟨k, hk, j, hj, rfl, _⟩ h
      have := spriteRow_inj oy (by omega) (by omega) h
      omega
    refine ⟨?_, ?_, ?_⟩
    · intro r c h
      rcases (bytesHit_cons ..).1 h with h | h
      · rw [drawRows, i2 r c (fun h' => key r c h' h.1), b1 r c h]
      · rw [drawRows, i1 r c h, b2 r c (fun h' => key r c h h'.1)]
    · intro r c h
      have h' := fun x => h ((bytesHit_cons ..).2 x)
      rw [drawRows, i2 r c (fun x => h' (.inr x)), b2 r c (fun x => h' (.inl x))]
    · rw [drawRows, i3, b3]
      constructor
      · rintro ((h | ⟨c, j, _, hj, hb, hp⟩) | ⟨r, c, h, hp⟩)
        · exact .inl h
        · exact .inr ⟨_, c, (bytesHit_cons ..).2 (.inl ⟨rfl, j, by omega, hj, hb⟩), hp⟩
        · rw [b2 r c (fun h' => key r c h h'.1)] at hp
          exact .inr ⟨r, c, (bytesHit_cons ..).2 (.inr h), hp⟩
      · rintro (h | ⟨r, c, h, hp⟩)
        · exact .inl (.inl h)
        · rcases (bytesHit_cons ..).1 h with ⟨rfl, j, _, hj, hb⟩ | h
          · exact .inl (.inr ⟨c, j, by omega, hj, hb, hp⟩)
          · refine .inr ⟨r, c, h, ?_⟩
            rw [b2 r c (fun h' => key r c h h'.1)]
            exact hp

end Sys2Proof.Machine
end

