-- ==== Sys2Proof/Laws/Encoding.lean ====
section
/-! SUPPORT. The fields of a word and the packed words as numbers, and the fields of a packed word. -/

namespace Sys2Proof

theorem toNat_append_eq {n m : Nat} (a : BitVec n) (b : BitVec m) : (a ++ b).toNat = a.toNat * 2^m + b.toNat := by
  rw [BitVec.toNat_append, ← Nat.shiftLeft_add_eq_or_of_lt b.isLt, Nat.shiftLeft_eq]

theorem fieldOp_toNat (w : Word) : (fieldOp w).toNat = w.toNat / 4096 := by
  have := w.isLt; simp [fieldOp, Nat.shiftRight_eq_div_pow]; omega

theorem fieldX_val (w : Word) : (fieldX w).val = w.toNat / 256 % 16 := by
  simp [fieldX, Nat.shiftRight_eq_div_pow]

theorem fieldY_val (w : Word) : (fieldY w).val = w.toNat / 16 % 16 := by
  simp [fieldY, Nat.shiftRight_eq_div_pow]

theorem fieldN_toNat (w : Word) : (fieldN w).toNat = w.toNat % 16 := by
  simp [fieldN]

theorem fieldKk_toNat (w : Word) : (fieldKk w).toNat = w.toNat % 256 := by
  simp [fieldKk]

theorem fieldNnn_toNat (w : Word) : (fieldNnn w).toNat = w.toNat % 4096 := by
  simp [fieldNnn]

theorem packXkk_toNat (op : BitVec 4) (x : Reg) (kk : Byte) : (packXkk op x kk).toNat = op.toNat * 4096 + x.val * 256 + kk.toNat := by
  simp only [packXkk, toNat_append_eq, regField, BitVec.toNat_ofFin]; omega

theorem packXyn_toNat (op : BitVec 4) (x y : Reg) (n : BitVec 4) : (packXyn op x y n).toNat = op.toNat * 4096 + x.val * 256 + y.val * 16 + n.toNat := by
  simp only [packXyn, toNat_append_eq, regField, BitVec.toNat_ofFin]; omega

theorem packNnn_toNat (op : BitVec 4) (nnn : BitVec 12) : (packNnn op nnn).toNat = op.toNat * 4096 + nnn.toNat := by
  rw [packNnn, toNat_append_eq]; rfl

theorem fields_packXkk (op : BitVec 4) (x : Reg) (kk : Byte) :
    fieldOp (packXkk op x kk) = op ∧ fieldX (packXkk op x kk) = x ∧ fieldKk (packXkk op x kk) = kk := by
  have := x.isLt; have := kk.isLt; have := op.isLt
  refine ⟨BitVec.eq_of_toNat_eq ?_, Fin.ext ?_, BitVec.eq_of_toNat_eq ?_⟩
  · rw [fieldOp_toNat, packXkk_toNat]; omega
  · rw [fieldX_val, packXkk_toNat]; omega
  · rw [fieldKk_toNat, packXkk_toNat]; omega

theorem fields_packXyn (op : BitVec 4) (x y : Reg) (n : BitVec 4) :
    fieldOp (packXyn op x y n) = op ∧ fieldX (packXyn op x y n) = x ∧
    fieldY (packXyn op x y n) = y ∧ fieldN (packXyn op x y n) = n := by
  have := x.isLt; have := y.isLt; have := op.isLt; have := n.isLt
  refine ⟨BitVec.eq_of_toNat_eq ?_, Fin.ext ?_, Fin.ext ?_, BitVec.eq_of_toNat_eq ?_⟩
  · rw [fieldOp_toNat, packXyn_toNat]; omega
  · rw [fieldX_val, packXyn_toNat]; omega
  · rw [fieldY_val, packXyn_toNat]; omega
  · rw [fieldN_toNat, packXyn_toNat]; omega

theorem fields_packNnn (op : BitVec 4) (nnn : BitVec 12) :
    fieldOp (packNnn op nnn) = op ∧ fieldNnn (packNnn op nnn) = nnn := by
  have := nnn.isLt; have := op.isLt
  refine ⟨BitVec.eq_of_toNat_eq ?_, BitVec.eq_of_toNat_eq ?_⟩
  · rw [fieldOp_toNat, packNnn_toNat]; omega
  · rw [fieldNnn_toNat, packNnn_toNat]; omega

/-- A word is its two bytes in memory order. -/
theorem wordOfBytes_highByte_lowByte (w : Word) : wordOfBytes (highByte w) (lowByte w) = w := by
  apply BitVec.eq_of_toNat_eq
  have := w.isLt
  rw [wordOfBytes, toNat_append_eq]; simp [highByte, lowByte, Nat.shiftRight_eq_div_pow]; omega

end Sys2Proof
end

