-- ==== Sys2Proof/Laws/PerInstr.lean ====
section
/-! SUPPORT. One law for every constructor of `Instr`: its words match its own row of spec/opcode_table.json (R47). -/

namespace Sys2Proof.Laws.OpcodeRow

/-- The columns `mask` and `match` of an instruction's row (R47). -/
def row : Instr → Word × Word
  | .cls => (0xFFFF#16, 0x00E0#16)
  | .ret => (0xFFFF#16, 0x00EE#16)
  | .sys _ => (0xF000#16, 0x0000#16)
  | .jp _ => (0xF000#16, 0x1000#16)
  | .call _ => (0xF000#16, 0x2000#16)
  | .seImm _ _ => (0xF000#16, 0x3000#16)
  | .sneImm _ _ => (0xF000#16, 0x4000#16)
  | .seReg _ _ => (0xF00F#16, 0x5000#16)
  | .ldImm _ _ => (0xF000#16, 0x6000#16)
  | .addImm _ _ => (0xF000#16, 0x7000#16)
  | .ldReg _ _ => (0xF00F#16, 0x8000#16)
  | .or _ _ => (0xF00F#16, 0x8001#16)
  | .and _ _ => (0xF00F#16, 0x8002#16)
  | .xor _ _ => (0xF00F#16, 0x8003#16)
  | .addReg _ _ => (0xF00F#16, 0x8004#16)
  | .sub _ _ => (0xF00F#16, 0x8005#16)
  | .shr _ _ => (0xF00F#16, 0x8006#16)
  | .subn _ _ => (0xF00F#16, 0x8007#16)
  | .shl _ _ => (0xF00F#16, 0x800E#16)
  | .sneReg _ _ => (0xF00F#16, 0x9000#16)
  | .ldI _ => (0xF000#16, 0xA000#16)
  | .jpV0 _ => (0xF000#16, 0xB000#16)
  | .rnd _ _ => (0xF000#16, 0xC000#16)
  | .drw _ _ _ => (0xF000#16, 0xD000#16)
  | .skp _ => (0xF0FF#16, 0xE09E#16)
  | .sknp _ => (0xF0FF#16, 0xE0A1#16)
  | .ldVxDt _ => (0xF0FF#16, 0xF007#16)
  | .ldVxK _ => (0xF0FF#16, 0xF00A#16)
  | .ldDtVx _ => (0xF0FF#16, 0xF015#16)
  | .ldStVx _ => (0xF0FF#16, 0xF018#16)
  | .addIVx _ => (0xF0FF#16, 0xF01E#16)
  | .ldFVx _ => (0xF0FF#16, 0xF029#16)
  | .ldBVx _ => (0xF0FF#16, 0xF033#16)
  | .ldMemVx _ => (0xF0FF#16, 0xF055#16)
  | .ldVxMem _ => (0xF0FF#16, 0xF065#16)

/-- Every word of an instruction agrees with its row's `match` on its row's `mask`. -/
def Statement (i : Instr) : Prop := encode i &&& (row i).1 = (row i).2

/-! What masking each word shape leaves. -/

theorem mask_packNnn (op : BitVec 4) (nnn : BitVec 12) : packNnn op nnn &&& 0xF000#16 = op ++ 0#12 := by
  rw [show (0xF000#16) = 0xF#4 ++ 0#12 from rfl, packNnn, BitVec.and_append]
  congr 1
  · exact BitVec.and_allOnes
  · exact BitVec.and_zero

theorem mask_packXkk_op (op : BitVec 4) (x : Reg) (kk : Byte) :
    packXkk op x kk &&& 0xF000#16 = (op ++ 0#4 : BitVec 8) ++ 0#8 := by
  rw [show (0xF000#16) = (0xF#4 ++ 0#4 : BitVec 8) ++ 0#8 from rfl, packXkk, BitVec.and_append, BitVec.and_append,
    BitVec.and_zero, BitVec.and_zero, show op &&& 0xF#4 = op from BitVec.and_allOnes]

theorem mask_packXkk_opKk (op : BitVec 4) (x : Reg) (kk : Byte) :
    packXkk op x kk &&& 0xF0FF#16 = (op ++ 0#4 : BitVec 8) ++ kk := by
  rw [show (0xF0FF#16) = (0xF#4 ++ 0#4 : BitVec 8) ++ 0xFF#8 from rfl, packXkk, BitVec.and_append, BitVec.and_append,
    BitVec.and_zero, show op &&& 0xF#4 = op from BitVec.and_allOnes, show kk &&& 0xFF#8 = kk from BitVec.and_allOnes]

theorem mask_packXyn_op (op : BitVec 4) (x y : Reg) (n : BitVec 4) :
    packXyn op x y n &&& 0xF000#16 = (op ++ 0#4 : BitVec 8) ++ 0#8 := by
  rw [show (0xF000#16) = (0xF#4 ++ 0#4 : BitVec 8) ++ 0#8 from rfl, packXyn, BitVec.and_append, BitVec.and_append,
    BitVec.and_zero, BitVec.and_zero, show op &&& 0xF#4 = op from BitVec.and_allOnes]

theorem mask_packXyn_opN (op : BitVec 4) (x y : Reg) (n : BitVec 4) :
    packXyn op x y n &&& 0xF00F#16 = (op ++ 0#4 : BitVec 8) ++ (0#4 ++ n : BitVec 8) := by
  rw [show (0xF00F#16) = (0xF#4 ++ 0#4 : BitVec 8) ++ (0#4 ++ 0xF#4 : BitVec 8) from rfl, packXyn, BitVec.and_append,
    BitVec.and_append, BitVec.and_append, BitVec.and_zero, BitVec.and_zero,
    show op &&& 0xF#4 = op from BitVec.and_allOnes, show n &&& 0xF#4 = n from BitVec.and_allOnes]

/-! The law, constructor by constructor. -/

theorem cls : Statement .cls := rfl
theorem ret : Statement .ret := rfl
theorem sys (nnn : BitVec 12) : Statement (.sys nnn) := mask_packNnn _ _
theorem jp (nnn : BitVec 12) : Statement (.jp nnn) := mask_packNnn _ _
theorem call (nnn : BitVec 12) : Statement (.call nnn) := mask_packNnn _ _
theorem seImm (x : Reg) (kk : Byte) : Statement (.seImm x kk) := mask_packXkk_op _ _ _
theorem sneImm (x : Reg) (kk : Byte) : Statement (.sneImm x kk) := mask_packXkk_op _ _ _
theorem seReg (x : Reg) (y : Reg) : Statement (.seReg x y) := mask_packXyn_opN _ _ _ _
theorem ldImm (x : Reg) (kk : Byte) : Statement (.ldImm x kk) := mask_packXkk_op _ _ _
theorem addImm (x : Reg) (kk : Byte) : Statement (.addImm x kk) := mask_packXkk_op _ _ _
theorem ldReg (x : Reg) (y : Reg) : Statement (.ldReg x y) := mask_packXyn_opN _ _ _ _
theorem or (x : Reg) (y : Reg) : Statement (.or x y) := mask_packXyn_opN _ _ _ _
theorem and (x : Reg) (y : Reg) : Statement (.and x y) := mask_packXyn_opN _ _ _ _
theorem xor (x : Reg) (y : Reg) : Statement (.xor x y) := mask_packXyn_opN _ _ _ _
theorem addReg (x : Reg) (y : Reg) : Statement (.addReg x y) := mask_packXyn_opN _ _ _ _
theorem sub (x : Reg) (y : Reg) : Statement (.sub x y) := mask_packXyn_opN _ _ _ _
theorem shr (x : Reg) (y : Reg) : Statement (.shr x y) := mask_packXyn_opN _ _ _ _
theorem subn (x : Reg) (y : Reg) : Statement (.subn x y) := mask_packXyn_opN _ _ _ _
theorem shl (x : Reg) (y : Reg) : Statement (.shl x y) := mask_packXyn_opN _ _ _ _
theorem sneReg (x : Reg) (y : Reg) : Statement (.sneReg x y) := mask_packXyn_opN _ _ _ _
theorem ldI (nnn : BitVec 12) : Statement (.ldI nnn) := mask_packNnn _ _
theorem jpV0 (nnn : BitVec 12) : Statement (.jpV0 nnn) := mask_packNnn _ _
theorem rnd (x : Reg) (kk : Byte) : Statement (.rnd x kk) := mask_packXkk_op _ _ _
theorem drw (x : Reg) (y : Reg) (n : BitVec 4) : Statement (.drw x y n) := mask_packXyn_op _ _ _ _
theorem skp (x : Reg) : Statement (.skp x) := mask_packXkk_opKk _ _ _
theorem sknp (x : Reg) : Statement (.sknp x) := mask_packXkk_opKk _ _ _
theorem ldVxDt (x : Reg) : Statement (.ldVxDt x) := mask_packXkk_opKk _ _ _
theorem ldVxK (x : Reg) : Statement (.ldVxK x) := mask_packXkk_opKk _ _ _
theorem ldDtVx (x : Reg) : Statement (.ldDtVx x) := mask_packXkk_opKk _ _ _
theorem ldStVx (x : Reg) : Statement (.ldStVx x) := mask_packXkk_opKk _ _ _
theorem addIVx (x : Reg) : Statement (.addIVx x) := mask_packXkk_opKk _ _ _
theorem ldFVx (x : Reg) : Statement (.ldFVx x) := mask_packXkk_opKk _ _ _
theorem ldBVx (x : Reg) : Statement (.ldBVx x) := mask_packXkk_opKk _ _ _
theorem ldMemVx (x : Reg) : Statement (.ldMemVx x) := mask_packXkk_opKk _ _ _
theorem ldVxMem (x : Reg) : Statement (.ldVxMem x) := mask_packXkk_opKk _ _ _

end Sys2Proof.Laws.OpcodeRow
end

