-- ==== Sys2Proof/Tests/Slice0.lean ====
section
/-! SUPPORT. Tests. Expected results are the vectors W1 to W8 and V1 to V112 of spec/95_test_vectors.md, cited by their
numbers, or words written out from the encoding column of spec/opcode_table.json. Then, for every statement with hypotheses,
a concrete input that meets them. -/

namespace Sys2Proof.Tests
open Sys2Proof.Machine

/-- The block after construction with the word `w` at 0x200, where the first cycle fetches. -/
def start (w : Word) : State := State.reset.storeWordAtPc w

/-- As `start`, under `VF_ALIAS = refuse` and `I_ADD_OVERFLOW = fault`. -/
def strict (w : Word) : State :=
  { start w with params := { Config.defaultParams with vfAlias := .refuse, iAddOverflow := .fault } }

/-- The state answered as the next one has the property `p`. -/
def gives (o : Host.Outcome State Fault Refusal) (p : State → Bool) : Bool :=
  match o with
  | .next t => p t
  | .fault _ => false
  | .refused _ => false

/-- One cycle completes and leaves a state with the property `p`. -/
def runs (s : State) (p : State → Bool) : Bool := gives (step s) (fun t => t.status == .running && p t)

/-- One cycle halts the block with this record, and the rest of the state is exactly the start state (R94). -/
def halts (s : State) (kind : FaultKind) (word : Option Word) (info : Option Nat) : Bool :=
  gives (step s) (fun t =>
    decide (t = { s with status := .halted { kind := kind, pc := s.pc, word := word, info := info } }))

/-! ### Well-formed terms (R42) -/

theorem test_wf_sys_refuses_the_word_of_cls : (Instr.sys 0x0E0).wellFormed = false := by decide
theorem test_wf_sys_refuses_the_word_of_ret : (Instr.sys 0x0EE).wellFormed = false := by decide
theorem test_wf_sys_accepts_the_rest : (Instr.sys 0x0E1).wellFormed = true := by decide

/-! ### Decoding: every row's encoding column, its fields filled in by hand -/

theorem test_decode_cls : decode 0b0000000011100000 = .instr (.cls) := by decide
theorem test_decode_ret : decode 0b0000000011101110 = .instr (.ret) := by decide
theorem test_decode_sys : decode 0b0000001101000101 = .instr (.sys 0x345) := by decide
theorem test_decode_jp : decode 0b0001001000000011 = .instr (.jp 0x203) := by decide
theorem test_decode_call : decode 0b0010001000010000 = .instr (.call 0x210) := by decide
theorem test_decode_seImm : decode 0b0011001000110100 = .instr (.seImm 2 0x34) := by decide
theorem test_decode_sneImm : decode 0b0100101000000001 = .instr (.sneImm 10 0x01) := by decide
theorem test_decode_seReg : decode 0b0101000100100000 = .instr (.seReg 1 2) := by decide
theorem test_decode_ldImm : decode 0b0110101011111110 = .instr (.ldImm 10 0xFE) := by decide
theorem test_decode_addImm : decode 0b0111001010000000 = .instr (.addImm 2 0x80) := by decide
theorem test_decode_ldReg : decode 0b1000000100100000 = .instr (.ldReg 1 2) := by decide
theorem test_decode_or : decode 0b1000000100100001 = .instr (.or 1 2) := by decide
theorem test_decode_and : decode 0b1000000100100010 = .instr (.and 1 2) := by decide
theorem test_decode_xor : decode 0b1000000100100011 = .instr (.xor 1 2) := by decide
theorem test_decode_addReg : decode 0b1000000100100100 = .instr (.addReg 1 2) := by decide
theorem test_decode_sub : decode 0b1000000100100101 = .instr (.sub 1 2) := by decide
theorem test_decode_shr : decode 0b1000000100100110 = .instr (.shr 1 2) := by decide
theorem test_decode_subn : decode 0b1000000100100111 = .instr (.subn 1 2) := by decide
theorem test_decode_shl : decode 0b1000000100101110 = .instr (.shl 1 2) := by decide
theorem test_decode_sneReg : decode 0b1001000100100000 = .instr (.sneReg 1 2) := by decide
theorem test_decode_ldI : decode 0b1010101111001101 = .instr (.ldI 0xBCD) := by decide
theorem test_decode_jpV0 : decode 0b1011001100000001 = .instr (.jpV0 0x301) := by decide
theorem test_decode_rnd : decode 0b1100001100001111 = .instr (.rnd 3 0x0F) := by decide
theorem test_decode_drw : decode 0b1101000100100011 = .instr (.drw 1 2 3) := by decide
theorem test_decode_skp : decode 0b1110000110011110 = .instr (.skp 1) := by decide
theorem test_decode_sknp : decode 0b1110000110100001 = .instr (.sknp 1) := by decide
theorem test_decode_ldVxDt : decode 0b1111001100000111 = .instr (.ldVxDt 3) := by decide
theorem test_decode_ldVxK : decode 0b1111000100001010 = .instr (.ldVxK 1) := by decide
theorem test_decode_ldDtVx : decode 0b1111001100010101 = .instr (.ldDtVx 3) := by decide
theorem test_decode_ldStVx : decode 0b1111001100011000 = .instr (.ldStVx 3) := by decide
theorem test_decode_addIVx : decode 0b1111001000011110 = .instr (.addIVx 2) := by decide
theorem test_decode_ldFVx : decode 0b1111010100101001 = .instr (.ldFVx 5) := by decide
theorem test_decode_ldBVx : decode 0b1111001100110011 = .instr (.ldBVx 3) := by decide
theorem test_decode_ldMemVx : decode 0b1111001001010101 = .instr (.ldMemVx 2) := by decide
theorem test_decode_ldVxMem : decode 0b1111111101100101 = .instr (.ldVxMem 15) := by decide

/-- V2, V3: two of the seven illegal values of `n` in family 8 (R44). -/
theorem test_reject_family8 : decode 0x8008 = .reject .family8 ∧ decode 0x800F = .reject .family8 := by decide
/-- V4 (R43). -/
theorem test_reject_family5 : decode 0x5121 = .reject .family5 := by decide
/-- V5 (R43). -/
theorem test_reject_family9 : decode 0x9121 = .reject .family9 := by decide
/-- V6 (R45). -/
theorem test_reject_familyE : decode 0xE09F = .reject .familyE := by decide
/-- V7, V8 (R45). -/
theorem test_reject_familyF : decode 0xF000 = .reject .familyF ∧ decode 0xFFFF = .reject .familyF := by decide
/-- R38: an instruction is two bytes. -/
theorem test_reject_one_byte : decodeBytes [0x60#8] = (.reject .truncated, [0x60#8]) := by decide
/-- R30: the byte at the lower address is the high one. -/
theorem test_decode_bytes_big_endian :
    decodeBytes [0x60#8, 0x05#8, 0x70#8] = (.instr (.ldImm 0 5), [0x70#8]) := by decide
/-- The host's numbering: one 16-bit word. -/
theorem test_decodeTableWord : decodeTableWord 16 0x6005 = some (.ldImm 0 5) := by decide
/-- Step runs the word that `withFetchWord` places (W1, first cycle). -/
theorem test_withFetchWord :
    runs (State.reset.withFetchWord 16 0x6005) (fun t => t.getV 0 == 5 && t.pc == 0x202) = true := by decide

/-! ### The cycle -/

/-- V1, first cycle: with nothing placed, 0x0000 at 0x200 is a jump to 0. -/
theorem test_reset_jumps_to_zero :
    runs (State.reset)
      (fun t => t.pc == 0) = true := by decide
/-- V1, second cycle: the default FONT's first word is illegal. -/
theorem test_reset_then_decode_failure :
    halts (State.reset.setPc 0) .decodeFailure (some 0xF090) none = true := by decide
/-- V2. -/
theorem test_illegal_word_halts :
    halts (start 0x8008) .decodeFailure (some 0x8008) none = true := by decide
/-- V9, first cycle. -/
theorem test_pc_reaches_0x1000 :
    runs ((State.reset.setPc 0xFFE).storeWordAtPc 0x6001)
      (fun t => t.getV 0 == 1 && t.pc == 0x1000) = true := by decide
/-- V9, second cycle. -/
theorem test_fetch_at_0x1000 :
    halts (State.reset.setPc 0x1000) .memoryOutOfRange none (some 0x1000) = true := by decide
/-- V10. -/
theorem test_fetch_at_0xFFF :
    halts (State.reset.setPc 0xFFF) .memoryOutOfRange none (some 0x1000) = true := by decide
/-- V11, second cycle. -/
theorem test_odd_pc :
    runs ((State.reset.setPc 0x203).storeWordAtPc 0x6007)
      (fun t => t.getV 0 == 7 && t.pc == 0x205) = true := by decide
/-- V12. -/
theorem test_fault_keeps_the_timers :
    halts ((start 0x00EE).setDt 5) .stackUnderflow (some 0x00EE) none = true := by decide
/-- V13. -/
theorem test_tick :
    runs (((start 0x6000).setDt 1).setSt 2)
      (fun t => t.dt == 0 && t.st == 1 && t.pc == 0x202) = true := by decide
/-- V14. -/
theorem test_tick_floor :
    runs (start 0x6000)
      (fun t => t.dt == 0 && t.st == 0 && t.pc == 0x202) = true := by decide

/-! ### Control flow -/

/-- V15. -/
theorem test_ret :
    runs (({ State.reset with pc := 0x210, sp := 1, stack := State.reset.stack.set 0 0x206 }).storeWordAtPc 0x00EE)
      (fun t => t.pc == 0x206 && t.sp == 0 && t.stack[0] == 0x206) = true := by decide
/-- V16. -/
theorem test_sys :
    runs (start 0x0345)
      (fun t => t.pc == 0x345 && t.sp == 0) = true := by decide
/-- V17. -/
theorem test_jp :
    runs (start 0x1200)
      (fun t => t.pc == 0x200) = true := by decide
/-- V18. -/
theorem test_call :
    runs (start 0x2210)
      (fun t => t.stack[0] == 0x202 && t.sp == 1 && t.pc == 0x210) = true := by decide
/-- V19, cycle 17. -/
theorem test_call_overflow :
    halts ({ start 0x2200 with sp := 16 }) .stackOverflow (some 0x2200) none = true := by decide
/-- V20. -/
theorem test_seImm_equal :
    runs ((start 0x3233).setV 2 0x33)
      (fun t => t.pc == 0x204) = true := by decide
/-- V21. -/
theorem test_seImm_unequal :
    runs ((start 0x3234).setV 2 0x33)
      (fun t => t.pc == 0x202) = true := by decide
/-- V22. -/
theorem test_sneImm_equal :
    runs ((start 0x4233).setV 2 0x33)
      (fun t => t.pc == 0x202) = true := by decide
/-- V23. -/
theorem test_sneImm_unequal :
    runs ((start 0x4234).setV 2 0x33)
      (fun t => t.pc == 0x204) = true := by decide
/-- V25. -/
theorem test_seReg :
    runs (((start 0x5010).setV 0 5).setV 1 5)
      (fun t => t.pc == 0x204) = true := by decide
/-- V27. -/
theorem test_sneReg_unequal :
    runs (((start 0x9010).setV 0 4).setV 1 5)
      (fun t => t.pc == 0x204) = true := by decide
/-- V28. -/
theorem test_sneReg_same_register :
    runs (start 0x9550)
      (fun t => t.pc == 0x202) = true := by decide
/-- V29. -/
theorem test_jpV0 :
    runs ((start 0xB300).setV 0 0x10)
      (fun t => t.pc == 0x310) = true := by decide
/-- V30. -/
theorem test_jpV0_past_memory :
    runs ((start 0xBFFF).setV 0 0xFF)
      (fun t => t.pc == 0x10FE) = true := by decide

/-! ### Loads, arithmetic, logic -/

/-- V31. -/
theorem test_ldImm :
    runs (start 0x6AFF)
      (fun t => t.getV 10 == 0xFF && t.pc == 0x202) = true := by decide
/-- V32. -/
theorem test_addImm_wraps :
    runs ((start 0x70FF).setV 0 1)
      (fun t => t.getV 0 == 0 && t.getV 15 == 0) = true := by decide
/-- V33. -/
theorem test_addImm_into_vf :
    runs ((start 0x7FFF).setV 15 1)
      (fun t => t.getV 15 == 0) = true := by decide
/-- V34. -/
theorem test_ldReg :
    runs ((start 0x8010).setV 1 0x42)
      (fun t => t.getV 0 == 0x42) = true := by decide
/-- V35. -/
theorem test_or_keeps_vf :
    runs ((((start 0x8011).setV 0 0x0F).setV 1 0xF0).setV 15 1)
      (fun t => t.getV 0 == 0xFF && t.getV 15 == 1) = true := by decide
/-- V36. -/
theorem test_and :
    runs (((start 0x8012).setV 0 0x3C).setV 1 0x0F)
      (fun t => t.getV 0 == 0x0C) = true := by decide
/-- V37. -/
theorem test_xor :
    runs (((start 0x8013).setV 0 0x3C).setV 1 0x0F)
      (fun t => t.getV 0 == 0x33) = true := by decide
/-- W2. -/
theorem test_addReg_carry :
    runs (((start 0x8014).setV 0 250).setV 1 10)
      (fun t => t.getV 0 == 4 && t.getV 15 == 1 && t.pc == 0x202) = true := by decide
/-- V44. -/
theorem test_sub_borrow :
    runs (((start 0x8015).setV 0 3).setV 1 10)
      (fun t => t.getV 0 == 0xF9 && t.getV 15 == 0) = true := by decide
/-- V50: `V[1]` is ignored. -/
theorem test_shr :
    runs (((start 0x8016).setV 0 0x80).setV 1 1)
      (fun t => t.getV 0 == 0x40 && t.getV 15 == 0) = true := by decide
/-- V51. -/
theorem test_shr_vf :
    runs ((start 0x8F06).setV 15 3)
      (fun t => t.getV 15 == 0) = true := by decide
/-- V53: the comparison is strict. -/
theorem test_subn_equal :
    runs (((start 0x8017).setV 0 5).setV 1 5)
      (fun t => t.getV 0 == 0 && t.getV 15 == 0) = true := by decide
/-- V55. -/
theorem test_subn_from_vf :
    runs (((start 0x80F7).setV 0 2).setV 15 9)
      (fun t => t.getV 0 == 0xFF && t.getV 15 == 1) = true := by decide
/-- V57. -/
theorem test_shl :
    runs ((start 0x830E).setV 3 0x81)
      (fun t => t.getV 3 == 0x02 && t.getV 15 == 1) = true := by decide
/-- V58. -/
theorem test_shl_vf :
    runs ((start 0x8F0E).setV 15 0x80)
      (fun t => t.getV 15 == 2) = true := by decide
/-- V59, for whatever is drawn: the byte written is the draw masked by 0x0F (R78). -/
theorem test_rnd : ∃ t, exec (.rnd 3 0x0F) State.reset = .next t ∧ t.getV 3 = Config.rand 0 &&& 0x0F#8 := ⟨_, rfl, rfl⟩
/-- V60: whatever is drawn, `kk = 0` gives 0. -/
theorem test_rnd_mask_zero : ∃ t, exec (.rnd 3 0) State.reset = .next t ∧ t.getV 3 = 0#8 := ⟨_, rfl, BitVec.and_zero⟩
/-- V61. -/
theorem test_sub_refused :
    halts (strict 0x8F15) .unmodelled (some 0x8F15) none = true := by decide
/-- V62, which runs as V41: the carry is written last. -/
theorem test_addReg_not_refused :
    runs (((strict 0x8F14).setV 15 200).setV 1 100)
      (fun t => t.getV 15 == 1) = true := by decide

/-! ### Index register and memory transfer -/

/-- V63. -/
theorem test_ldI :
    runs (start 0xA300)
      (fun t => t.i == 0x300) = true := by decide
/-- V66. -/
theorem test_addIVx_wraps :
    runs (((start 0xF01E).setI 0xFFFF).setV 0 1)
      (fun t => t.i == 0) = true := by decide
/-- V67. -/
theorem test_addIVx_faults :
    halts (((strict 0xF01E).setI 0xFFFF).setV 0 1) .indexOverflow (some 0xF01E) none = true := by decide
/-- V70. -/
theorem test_ldFVx :
    runs ((start 0xF029).setV 0 0xFF)
      (fun t => t.i == 0x4FB) = true := by decide
/-- W3. -/
theorem test_ldBVx :
    runs (((start 0xF333).setI 0x300).setV 3 205)
      (fun t => t.byte 0x300 == 2 && t.byte 0x301 == 0 && t.byte 0x302 == 5 && t.i == 0x300) = true := by decide
/-- V74. -/
theorem test_ldBVx_out_of_range :
    halts ((start 0xF033).setI 0xFFE) .memoryOutOfRange (some 0xF033) (some 0x1000) = true := by decide
/-- V75: no write protection. -/
theorem test_ldMemVx_over_the_font :
    runs (((start 0xF055).setI 0).setV 0 0x12)
      (fun t => t.byte 0 == 0x12) = true := by decide
/-- V80: register 3 is not stored. -/
theorem test_ldMemVx :
    runs (((((start 0xF255).setI 0x300 |>.setV 0 1).setV 1 2).setV 2 3).setV 3 4)
      (fun t => t.readBytes 0x300 4 == [1, 2, 3, 0] && t.i == 0x300) = true := by decide
/-- V78. -/
theorem test_ldVxMem_out_of_range :
    halts ((start 0xF065).setI 0x1001) .memoryOutOfRange (some 0xF065) (some 0x1001) = true := by decide
/-- V79. -/
theorem test_ldVxMem :
    runs (((start 0xFF65).setI 0x300).writeByte 0x30F 0x77)
      (fun t => t.getV 15 == 0x77 && t.getV 0 == 0 && t.i == 0x300) = true := by decide

/-! ### Display -/

/-- V81. -/
theorem test_cls :
    runs ((start 0x00E0).setFb (Vector.replicate 32 (Vector.replicate 64 true)))
      (fun t => decide (t.fb = Framebuffer.clear) && t.dirty) = true := by decide
/-- V82. -/
theorem test_drw_wraps :
    runs (((((start 0xD122).setI 0x220).writeBytes 0x220 [0xC0, 0x80]).setV 1 63).setV 2 31)
      (fun t => t.pixel 31 63 && t.pixel 31 0 && t.pixel 0 63 && !t.pixel 0 0 && t.getV 15 == 0 && t.dirty) = true := by decide
/-- A case against the wording of R87, worked by R86 (log 20): a sprite with a set bit, drawn twice at a pixel that was lit
before the first draw; the second draw meets an unset pixel and leaves VF at 0. -/
theorem test_R87_second_draw_may_leave_vf_at_0 :
    (let s := (((start 0xD011).setI 0x300).writeByte 0x300 0x80).setFb (Framebuffer.flip Framebuffer.clear 0 0)
     runs s (fun t => t.getV 15 == 1 && !t.pixel 0 0 && gives (exec (.drw 0 1 1) t) (fun u => u.getV 15 == 0))) = true := by decide

/-! ### Keys and timers -/

/-- V92. -/
theorem test_skp_keeps_the_latch :
    runs (((start 0xE19E).setV 1 7).pressKey 7)
      (fun t => t.pc == 0x204 && t.pressed 7) = true := by decide
/-- V94. -/
theorem test_skp_no_such_key :
    halts ((start 0xE09E).setV 0 0x10) .keyIndexOutOfRange (some 0xE09E) (some 16) = true := by decide
/-- V95. -/
theorem test_sknp_clears_the_latch :
    runs ((((start 0xE1A1).setV 1 7).pressKey 7).pressKey 2)
      (fun t => t.pc == 0x202 && !t.pressed 7 && !t.pressed 2) = true := by decide
/-- V96. -/
theorem test_sknp_keeps_the_latch :
    runs (((start 0xE1A1).setV 1 7).pressKey 2)
      (fun t => t.pc == 0x204 && t.pressed 2) = true := by decide
/-- V98. -/
theorem test_ldVxDt :
    runs ((start 0xF307).setDt 5)
      (fun t => t.getV 3 == 5 && t.dt == 4) = true := by decide
/-- V100. -/
theorem test_ldVxK_lowest :
    runs (((start 0xF00A).pressKey 9).pressKey 3)
      (fun t => t.getV 0 == 3 && !t.pressed 9 && !t.pressed 3 && t.pc == 0x202) = true := by decide
/-- V102; W7's first cycle for the timer. -/
theorem test_ldVxK_waits :
    runs (((start 0xF00A).setV 0 0x55).setDt 3)
      (fun t => t.pc == 0x200 && t.getV 0 == 0x55 && t.dt == 2) = true := by decide
/-- V103. -/
theorem test_ldDtVx :
    runs ((start 0xF015).setV 0 10)
      (fun t => t.dt == 9) = true := by decide
/-- V105. -/
theorem test_ldStVx :
    runs ((start 0xF018).setV 0 1)
      (fun t => t.st == 0) = true := by decide

/-! ### Host commands -/

/-- V107. -/
theorem test_load_too_large : (command (.load (List.replicate 3585 0)) State.reset).2 = .refused .loadTooLarge := by
  rw [command, hostLoad, if_pos (by rw [List.length_replicate]; decide)]
/-- W1's image. -/
theorem test_load :
    (command (.load [0x60, 0x05, 0x70, 0x03]) State.reset).1.readBytes 0x1FF 6 = [0, 0x60, 0x05, 0x70, 0x03, 0] := by decide
/-- V109. -/
theorem test_set_key_16 : command (.setKey 16) State.reset = (State.reset, .refused .keyOutOfRange) := by decide
/-- V110, first command. -/
theorem test_set_key : (command (.setKey 3) State.reset).1.pressed 3 = true := by decide
/-- V111, first and third command. -/
theorem test_dirty : (command .readDirty (State.reset.setDirty true)).2 = .dirty true ∧
    (command .clearDirty (State.reset.setDirty true)).1.dirty = false := by decide
/-- R6: the next draw of a new block is not the first one again. -/
theorem test_new_goes_on_drawing : (command .new (State.reset.countDraw)).1 = State.reset.countDraw := by decide

/-! ### Witnesses: an input that meets every hypothesis of a statement, or of each of its clauses -/

/-- The record V12 leaves. -/
def record : FaultRecord := { kind := .stackUnderflow, pc := 0x200, word := some 0x00EE, info := none }

/-- V12's end state. -/
def haltedState : State := { start 0x00EE with status := .halted record }

/-- A word at the last address a fetch can read it from. -/
def last (w : Word) : State := (State.reset.setPc 4094).storeWordAtPc w

/-- The invariant's four parts, of a running state. -/
theorem inv_of_running {s : State} (hm : Memory.wf s.params.font s.mem) (hp : s.pc.toNat ≤ 0x10FE)
    (hs : ∀ j : Fin 16, s.stack[j].toNat ≤ 0x1000) (hr : s.status = .running) : Inv s :=
  ⟨hm, hp, hs, fun f hf => by rw [hr] at hf; cases hf⟩

/-- The ends of `0nnn` and a word beside an excluded one. -/
theorem witness_DecodeOfEncodeIsTheInstruction :
    (Instr.sys 0x000).wellFormed = true ∧ (Instr.sys 0xFFF).wellFormed = true ∧ (Instr.sys 0x0EF).wellFormed = true ∧
    (Instr.drw 15 15 15).wellFormed = true :=
  by decide
/-- The first and the last word of family 0, a word of a neighbour. -/
theorem witness_EncodeOfDecodeIsTheWord :
    decode 0x0000 = .instr (.sys 0) ∧ decode 0x0FFF = .instr (.sys 0xFFF) ∧ decode 0x1000 = .instr (.jp 0) :=
  by decide
/-- Reset's `PC` and the highest. -/
theorem witness_StepRunsTheDecodedInstruction :
    (start 0x6005).status = .running ∧ (start 0x6005).fetches (.ldImm 0 5) ∧
    (last 0x6005).status = .running ∧ (last 0x6005).fetches (.ldImm 0 5) :=
  by unfold State.fetches; decide
/-- Both clauses where they meet. -/
theorem witness_FetchReadsTheWordOrFaults :
    (State.reset.setPc 4094).pc.toNat ≤ 4094 ∧ 4094 < (State.reset.setPc 4095).pc.toNat ∧
    (State.reset.setPc 4095).status = .running ∧ 4095 < (State.reset.setPc 4096).pc.toNat :=
  by decide
/-- V2, at reset's `PC` and at the highest. -/
theorem witness_IllegalWordHaltsTheBlock :
    (start 0x8008).status = .running ∧ (start 0x8008).pc.toNat ≤ 4094 ∧ decode (start 0x8008).wordAtPc = .reject .family8 ∧
    (last 0xF000).status = .running ∧ (last 0xF000).pc.toNat ≤ 4094 ∧ decode (last 0xF000).wordAtPc = .reject .familyF :=
  by decide
/-- A running and a halted state. -/
theorem witness_CycleIsDefinedExactlyWhenRunning :
    State.reset.status = .running ∧ haltedState.status = .halted record :=
  by decide
/-- A fault of an instruction and one of a fetch. -/
theorem witness_FaultsArePrecise :
    (start 0x00EE).status = .running ∧ (start 0x00EE).pc.toNat ≤ 4094 ∧ step (start 0x00EE) = .next haltedState ∧
    haltedState.status = .halted record ∧
    (let s := State.reset.setPc 4095
     s.status = .running ∧ 4094 < s.pc.toNat ∧ gives (step s) (fun t => t.status != .running) = true) :=
  ⟨rfl, by decide, rfl, rfl, rfl, by decide, by decide⟩
/-- An instruction that raises each kind but `DecodeFailure`, which none raises. -/
theorem witness_FaultKindsByInstruction :
    (∃ t, exec (.call 0) { State.reset with sp := 16 } = .next t ∧ ∃ f, t.status = .halted f ∧ f.kind = .stackOverflow) ∧
    (∃ t, exec .ret State.reset = .next t ∧ ∃ f, t.status = .halted f ∧ f.kind = .stackUnderflow) ∧
    (∃ t, exec (.ldBVx 0) (State.reset.setI 4094) = .next t ∧ ∃ f, t.status = .halted f ∧ f.kind = .memoryOutOfRange) ∧
    (∃ t, exec (.skp 0) (State.reset.setV 0 16) = .next t ∧ ∃ f, t.status = .halted f ∧ f.kind = .keyIndexOutOfRange) ∧
    (∃ t, exec (.addIVx 0) (((strict 0).setI 0xFFFF).setV 0 1) = .next t ∧
      ∃ f, t.status = .halted f ∧ f.kind = .indexOverflow) ∧
    (∃ t, exec (.shr 15 0) (strict 0) = .next t ∧ ∃ f, t.status = .halted f ∧ f.kind = .unmodelled) :=
  ⟨⟨_, rfl, _, rfl, rfl⟩, ⟨_, rfl, _, rfl, rfl⟩, ⟨_, rfl, _, rfl, rfl⟩, ⟨_, rfl, _, rfl, rfl⟩, ⟨_, rfl, _, rfl, rfl⟩,
    ⟨_, rfl, _, rfl, rfl⟩⟩
/-- A cycle of each clause: `Fx15`, `Fx18`, `Fx07`, and one that faults. -/
theorem witness_TimersTickOncePerCompletedCycle :
    (∃ t, (start 0xF015).fetches (.ldDtVx 0) ∧ step (start 0xF015) = .next t ∧ t.status = .running) ∧
    (∃ t, (start 0xF018).fetches (.ldStVx 0) ∧ step (start 0xF018) = .next t ∧ t.status = .running) ∧
    (∃ t, (start 0xF007).fetches (.ldVxDt 0) ∧ step (start 0xF007) = .next t ∧ t.status = .running) ∧
    (∃ t, (start 0x00EE).fetches .ret ∧ step (start 0x00EE) = .next t ∧ ∃ f, t.status = .halted f) := by
  unfold State.fetches
  exact ⟨⟨_, by decide, rfl, rfl⟩, ⟨_, by decide, rfl, rfl⟩, ⟨_, by decide, rfl, rfl⟩, ⟨_, by decide, rfl, _, rfl⟩⟩
/-- StepKeepsTheInvariant, HostCommandsKeepTheInvariant: a state of the invariant that a step leaves, its `PC` the largest one (V30). -/
theorem witness_StepKeepsTheInvariant : Inv ((start 0xBFFF).setV 0 0xFF) ∧ Inv ((start 0).setPc 0x10FE) ∧
    ∃ t, step ((start 0).setPc 0x10FE) = .next t :=
  ⟨inv_of_running (by decide) (by decide) (by decide) rfl, inv_of_running (by decide) (by decide) (by decide) rfl, _, rfl⟩
/-- A halted state and commands without `new`. -/
theorem witness_HaltedForGoodExceptConstruction : haltedState.status = .halted record ∧ Command.new ∉ [.load [0x60], .setKey 1, .cycle] := by
  decide
/-- `8xy4` on two states that differ in an unread register, in memory and in the latch. -/
theorem witness_InstructionsReadOnlyTheirColumns :
    let s := start 0x8014
    let t := ((start 0).setV 5 7).pressKey 3
    Inv s ∧ Inv t ∧ s.pc = t.pc ∧ s.params = t.params ∧ s.draws = t.draws ∧ s.status = t.status ∧
    (∀ r, (Instr.addReg 0 1).readsReg r = true → s.getV r = t.getV r) ∧
    (∀ e, (Instr.addReg 0 1).readsElement e = true → Element.same s t e) ∧ s.getV 5 ≠ t.getV 5 :=
  ⟨inv_of_running (by decide) (by decide) (by decide) rfl, inv_of_running (by decide) (by decide) (by decide) rfl,
    rfl, rfl, rfl, rfl, by decide, (by intro e he; cases he), by decide⟩
/-- InstructionsWriteOnlyTheirColumns, LatchIsClearedWholeOrKept, DirtyIsSetByDisplayInstructionsOnly: a next state. -/
theorem witness_WriteColumns :
    (∃ t, exec (.sknp 0) (State.reset.pressKey 0) = .next t ∧ t.key ≠ (State.reset.pressKey 0).key) ∧
    (∃ t, exec .cls State.reset = .next t ∧ t.status = .running ∧ t.dirty = true) :=
  ⟨⟨_, rfl, by decide⟩, ⟨_, rfl, rfl, rfl⟩⟩
/-- V17's state is parked. -/
theorem witness_ParkedChangesOnlyTheTimers : ((start 0x1200).setDt 9).parked :=
  ⟨rfl, 0x200#12, by unfold State.fetches; decide, by decide⟩
/-- W7's state is waiting. -/
theorem witness_WaitingChangesOnlyTheTimers : ((start 0xF00A).setDt 3).waiting ∧ 15 < 16 :=
  ⟨⟨rfl, ⟨0, by unfold State.fetches; decide⟩, by decide⟩, by decide⟩
/-- Two registers stored at the last two bytes. -/
theorem witness_StoredBytesAreFetched : Inv (State.reset.setI 4094) ∧ 1 ≤ (1 : Reg).val ∧
    (State.reset.setI 4094).i.toNat + (1 : Reg).val ≤ 4095 :=
  ⟨inv_of_running (by decide) (by decide) (by decide) rfl, by decide, by decide⟩
/-- CallPushesOrOverflows, ReturnComesBackFromCall, ReturnPopsOrUnderflows: the last free entry, a full stack, one entry, none. -/
theorem witness_CallReturn :
    ({ State.reset with sp := 15 } : State).sp.val < 16 ∧ ({ State.reset with sp := 16 } : State).sp.val = 16 ∧
    0 < ({ State.reset with sp := 1 } : State).sp.val ∧ State.reset.sp.val = 0 :=
  by decide
/-- SubtractSetsNoBorrow, ReverseSubtractSetsNoBorrow, ShiftRightShiftsOutTheLowBit, ShiftLeftShiftsOutTheHighBit: the
refusing and the sequential parameter, VF an operand and none. -/
theorem witness_Subtracts :
    (strict 0).params.vfAlias = .refuse ∧ ((15 : Reg) = 15 ∨ (0 : Reg) = 15) ∧ State.reset.params.vfAlias = .sequential ∧
    ((0 : Reg) ≠ 15 ∧ (1 : Reg) ≠ 15) :=
  by decide
/-- `8xy5` completes under both parameters, with VF as an operand under the first (V46). -/
theorem witness_SubtractsComplete :
    gives (exec (.sub 15 1) ((State.reset.setV 15 5).setV 1 3)) (fun t => t.getV 15 == 0xFE) = true ∧
    gives (exec (.sub 0 1) ((strict 0).setV 0 10)) (fun t => t.getV 15 == 1) = true ∧
    gives (exec (.shl 15 0) (strict 0)) (fun t => t.status != .running) = true := by decide
/-- A sum at the limit, one past it under each parameter. -/
theorem witness_IndexAddWrapsOrFaults :
    (((strict 0).setI 0xFFFE).setV 0 1).i.toNat + (((strict 0).setI 0xFFFE).setV 0 1 |>.getV 0).toNat ≤ 0xFFFF ∧
    State.reset.params.iAddOverflow = .wrap ∧
    0xFFFF < (((strict 0).setI 0xFFFF).setV 0 1).i.toNat + (((strict 0).setI 0xFFFF).setV 0 1 |>.getV 0).toNat ∧
    (((strict 0).setI 0xFFFF).setV 0 1).params.iAddOverflow = .fault :=
  by decide
/-- DecimalDigitsAreStored, RegistersAreStored, RegistersAreLoaded, StoreThenLoadRestoresRegisters: the last `I` that fits and the first that does not,
of `Fx33`, and of `Fx55` and `Fx65` with `x = 15`. -/
theorem witness_Transfers :
    Memory.wf (State.reset.setI 4093).params.font (State.reset.setI 4093).mem ∧
    (State.reset.setI 4093).i.toNat + 2 ≤ 4095 ∧ 4095 < (State.reset.setI 4094).i.toNat + 2 ∧
    (State.reset.setI 4080).i.toNat + (15 : Reg).val ≤ 4095 ∧ 4095 < (State.reset.setI 4081).i.toNat + (15 : Reg).val :=
  by decide
/-- The four clauses of `Dxyn`: refused, past memory by one byte, no byte, up to the last byte; a pixel hit and one missed. -/
theorem witness_DrawFlipsTheSpritesPixels :
    (strict 0).params.vfAlias = .refuse ∧
    (4095 < (State.reset.setI 4095).i.toNat + (2#4).toNat - 1 ∧ 0 < (2#4).toNat) ∧ (0#4).toNat = 0 ∧
    (State.reset.setI 4095).i.toNat + (1#4).toNat - 1 ≤ 4095 ∧
    ((State.reset.setI 0x300).writeByte 0x300 0x80).spriteHits 0 1 1#4 0 0 ∧
    ¬ ((State.reset.setI 0x300).writeByte 0x300 0x80).spriteHits 0 1 1#4 1 0 :=
  ⟨rfl, by decide, rfl, by decide, ⟨0, 0, by decide, by decide, by decide, by decide, by decide⟩, by
    rintro ⟨row, col, hr, -, -, h, -⟩
    have h0 : row = 0 := by simpa using hr
    subst h0
    revert h
    decide⟩
/-- A sprite drawn twice, at an origin that VF does not hold, one of its two bits on a set pixel. -/
theorem witness_DrawingTwiceRestoresThePixels :
    let s := (((start 0xD011).setI 0x300).writeByte 0x300 0xC0).setFb (Framebuffer.flip Framebuffer.clear 0 0)
    (0 : Reg) ≠ 15 ∧ (1 : Reg) ≠ 15 ∧ s.i.toNat + (1#4).toNat - 1 ≤ 4095 ∧
    runs s (fun t => t.getV 15 == 1 && gives (exec (.drw 0 1 1) t) (fun u => u.getV 15 == 1 && u.pixel 0 0)) = true := by
  decide
/-- SkipIfKeyPressed, SkipIfKeyNotPressedElseClear: the last key, pressed and not, and the first number that is none. -/
theorem witness_KeySkips :
    ((State.reset.setV 0 15).getV 0).toNat = (15 : Fin 16).val ∧ (State.reset.setV 0 15).pressed 15 = false ∧
    ((State.reset.setV 0 15).pressKey 15).pressed 15 = true ∧ 15 < ((State.reset.setV 0 16).getV 0).toNat :=
  by decide
/-- Key 15 alone, keys 3 and 9, none. -/
theorem witness_KeyWaitTakesTheLowestKey :
    ((State.reset.pressKey 15).pressed 15 = true ∧ ∀ j : Fin 16, j < 15 → (State.reset.pressKey 15).pressed j = false) ∧
    (((State.reset.pressKey 9).pressKey 3).pressed 3 = true ∧
      ∀ j : Fin 16, j < 3 → ((State.reset.pressKey 9).pressKey 3).pressed j = false) ∧
    (∀ k, State.reset.pressed k = false) :=
  by decide
/-- KeyCommandsSetOneOrClearAll: the last key and the first number that is none. -/
theorem witness_KeyCommandsSetOneOrClearAll : 15 < 16 ∧ (command (.setKey 15) State.reset).1.pressed 15 = true := by decide
/-- The last digit, its last row. -/
theorem witness_DigitAddressesPointIntoTheFont : 15 < 16 ∧ 4 < 5 ∧
    gives (exec (.ldFVx 0) (State.reset.setV 0 15)) (fun t => t.i == 75 && t.byte 79 == 0x80) = true := by decide
/-- The longest image and one byte more. -/
theorem witness_LoadCopiesTheImageOrRefuses : Memory.wf State.reset.params.font State.reset.mem ∧
    (List.replicate 3584 (0 : Byte)).length ≤ 3584 ∧ 3584 < (List.replicate 3585 (0 : Byte)).length :=
  ⟨by decide, by rw [List.length_replicate], by rw [List.length_replicate]; decide⟩

end Sys2Proof.Tests
end

section
/-! PROOFS. The state family (spec/10_state.md): what an instruction may change (R20, R21), the latch (R15), the
dirty flag (R17) and the status (R18). -/

namespace Sys2Proof.Machine

/-! ### The columns of the access matrix -/

theorem Element.same_refl (s : State) (e : Element) : Element.same s s e := by
  cases e <;> simp [Element.same]

theorem Element.same_symm {s t : State} {e : Element} (h : Element.same s t e) : Element.same t s e := by
  cases e <;> simp_all [Element.same]

theorem Element.same_trans {s t u : State} {e : Element} (h : Element.same s t e) (h' : Element.same t u e) :
    Element.same s u e := by
  cases e <;> simp_all [Element.same]

/-- Writing registers keeps every column. -/
theorem Element.same_withV (s : State) (v : Vector Byte 16) (e : Element) : Element.same s { s with v := v } e := by
  cases e <;> simp [Element.same, State.byte]

theorem Element.same_setPc (s : State) (a : Word) (e : Element) : Element.same s (s.setPc a) e := by
  cases e <;> simp [Element.same]

theorem Element.same_countDraw (s : State) (e : Element) : Element.same s s.countDraw e := by
  cases e <;> simp [Element.same]

theorem Element.same_takeFault (s : State) (f : FaultRecord) (e : Element) : Element.same s (s.takeFault f) e := by
  cases e <;> simp [Element.same]

/-- `t` is `s` in all but one column. -/
def ChangesOnly (s t : State) : Element → Prop
  | .i => t = { s with i := t.i }
  | .mem => t = { s with mem := t.mem }
  | .stack => t = { s with stack := t.stack, sp := t.sp }
  | .dt => t = { s with dt := t.dt }
  | .st => t = { s with st := t.st }
  | .key => t = { s with key := t.key }
  | .fb => t = { s with fb := t.fb }
  | .dirty => t = { s with dirty := t.dirty }

section
variable {s t : State} {e₀ : Element}

/-- What is in no column stays when one column changes. -/
theorem ChangesOnly.core (h : ChangesOnly s t e₀) :
    t.v = s.v ∧ t.pc = s.pc ∧ t.status = s.status ∧ t.params = s.params ∧ t.draws = s.draws := by
  cases e₀ <;> (rw [h]; exact ⟨rfl, rfl, rfl, rfl, rfl⟩)

theorem ChangesOnly.getV (h : ChangesOnly s t e₀) (r : Reg) : t.getV r = s.getV r := by
  obtain ⟨hv, -⟩ := h.core
  simp only [State.getV, hv]

/-- Every other column stays when one changes. -/
theorem ChangesOnly.same (h : ChangesOnly s t e₀) {e : Element} (he : e ≠ e₀) : Element.same s t e := by
  cases e₀ <;> cases e <;> try exact absurd rfl he
  all_goals rw [h]; simp [Element.same, State.byte]

end

/-! ### Write columns (R20, R21) -/

/-- From `s` to `t` nothing has changed but what the instruction `i` may write, and the status at most to a fault. -/
structure WritesWithin (i : Instr) (s t : State) : Prop where
  regs : ∀ r, i.writesReg r = false → t.getV r = s.getV r
  columns : ∀ e, i.writesElement e = false → Element.same s t e
  params : t.params = s.params
  status : t.status = s.status ∨ ∃ f, t.status = .halted f
  draws : (∀ x kk, i ≠ .rnd x kk) → t.draws = s.draws

namespace WritesWithin
variable {i : Instr} {s t u : State}

theorem refl (i : Instr) (s : State) : WritesWithin i s s :=
  ⟨fun _ _ => rfl, fun e _ => Element.same_refl s e, rfl, .inl rfl, fun _ => rfl⟩

theorem trans (h : WritesWithin i s t) (h' : WritesWithin i t u) : WritesWithin i s u where
  regs r hr := (h'.regs r hr).trans (h.regs r hr)
  columns e he := Element.same_trans (h.columns e he) (h'.columns e he)
  params := h'.params.trans h.params
  status := h'.status.elim (fun hu => hu ▸ h.status) .inr
  draws hi := (h'.draws hi).trans (h.draws hi)

/-- An update of a column that `i` writes. -/
theorem column {e₀ : Element} (hw : i.writesElement e₀ = true) (h : ChangesOnly s t e₀) : WritesWithin i s t := by
  obtain ⟨-, -, hstatus, hparams, hdraws⟩ := h.core
  refine ⟨fun r _ => h.getV r, fun e he => h.same ?_, hparams, .inl hstatus, fun _ => hdraws⟩
  rintro rfl
  simp [hw] at he

/-- New register values, of registers that `i` writes. -/
theorem withV {v : Vector Byte 16} (hv : ∀ r : Reg, i.writesReg r = false → v[r] = s.getV r) :
    WritesWithin i s { s with v := v } :=
  ⟨hv, fun e _ => Element.same_withV s v e, rfl, .inl rfl, fun _ => rfl⟩

theorem setV {x : Reg} {b : Byte} (hw : i.writesReg x = true) : WritesWithin i s (s.setV x b) := by
  refine withV fun r hr => ?_
  have hrx : r ≠ x := by rintro rfl; simp [hw] at hr
  exact (s.setV_getV x b r).trans (if_neg hrx)

theorem setPc (a : Word) : WritesWithin i s (s.setPc a) :=
  ⟨fun _ _ => rfl, fun e _ => Element.same_setPc s a e, rfl, .inl rfl, fun _ => rfl⟩

theorem skipIf (c : Bool) : WritesWithin i s (s.skipIf c) := by
  cases c
  · exact refl i s
  · exact setPc _

theorem takeFault (f : FaultRecord) : WritesWithin i s (s.takeFault f) :=
  ⟨fun _ _ => rfl, fun e _ => Element.same_takeFault s f e, rfl, .inr ⟨f, rfl⟩, fun _ => rfl⟩

theorem countDraw {x : Reg} {kk : Byte} : WritesWithin (.rnd x kk) s s.countDraw :=
  ⟨fun _ _ => rfl, fun e _ => Element.same_countDraw s e, rfl, .inl rfl, fun h => absurd rfl (h x kk)⟩

end WritesWithin

/-! What the instructions with more than one outcome can answer. -/

/-- A refused instruction and one that completes. -/
theorem exists_next_of_ite {P : State → Prop} {c : Prop} [Decidable c] {kind : FaultKind} {info : Option Nat} {i : Instr}
    {s u : State} (hf : ∀ f, P (s.takeFault f)) (hu : P u) :
    ∃ t, (if c then raise kind info i s else .next u) = .next t ∧ P t := by
  split
  · exact ⟨_, rfl, hf _⟩
  · exact ⟨_, rfl, hu⟩

theorem execDrw_cases (x y : Reg) (n : BitVec 4) (s : State) :
    (∃ f, execDrw x y n s = .next (s.takeFault f)) ∨
    ∃ g b, execDrw x y n s = .next (((s.setFb g).setV Reg.vf b).setDirty true) := by
  unfold execDrw
  split
  · exact .inl ⟨_, rfl⟩
  · split
    · exact .inl ⟨_, rfl⟩
    · exact .inr ⟨_, _, rfl⟩

theorem execSknp_cases (x : Reg) (s : State) :
    (∃ f, execSknp x s = .next (s.takeFault f)) ∨ execSknp x s = .next s.clearKeys ∨ execSknp x s = .next s.skip := by
  unfold execSknp
  split
  · exact .inl ⟨_, rfl⟩
  · split
    · exact .inr (.inl rfl)
    · exact .inr (.inr rfl)

theorem execLdVxK_cases (x : Reg) (s : State) :
    (∃ b, execLdVxK x s = .next ((s.setV x b).clearKeys)) ∨ execLdVxK x s = .next s.rewind := by
  unfold execLdVxK
  split
  · exact .inl ⟨_, rfl⟩
  · exact .inr rfl

theorem execRet_writesWithin (s : State) : ∃ t, execRet s = .next t ∧ WritesWithin .ret s t := by
  rcases Nat.eq_zero_or_pos s.sp.val with h | h
  · simp only [execRet, (State.pop_eq_none s).2 h]
    exact ⟨_, rfl, .takeFault _⟩
  · simp only [execRet, State.pop_of_pos s h]
    exact ⟨_, rfl, .trans (.column (e₀ := .stack) rfl (by rfl)) (.setPc _)⟩

theorem execCall_writesWithin (nnn : BitVec 12) (s : State) :
    ∃ t, execCall nnn s = .next t ∧ WritesWithin (.call nnn) s t := by
  by_cases h : s.sp.val < 16
  · simp only [execCall, State.push_of_lt s s.pc h]
    exact ⟨_, rfl, .trans (.column (e₀ := .stack) rfl (by rfl)) (.setPc _)⟩
  · simp only [execCall, (State.push_eq_none s s.pc).2 (by omega)]
    exact ⟨_, rfl, .takeFault _⟩

theorem execDrw_writesWithin (x y : Reg) (n : BitVec 4) (s : State) :
    ∃ t, execDrw x y n s = .next t ∧ WritesWithin (.drw x y n) s t := by
  rcases execDrw_cases x y n s with ⟨f, h⟩ | ⟨g, b, h⟩
  · exact ⟨_, h, .takeFault f⟩
  · have hfb : WritesWithin (.drw x y n) s (s.setFb g) := .column (e₀ := .fb) rfl rfl
    exact ⟨_, h, (hfb.trans (.setV rfl)).trans (.column (e₀ := .dirty) rfl rfl)⟩

theorem execSkp_writesWithin (x : Reg) (s : State) : ∃ t, execSkp x s = .next t ∧ WritesWithin (.skp x) s t := by
  unfold execSkp
  split
  · exact ⟨_, rfl, .takeFault _⟩
  · exact ⟨_, rfl, .skipIf _⟩

theorem execSknp_writesWithin (x : Reg) (s : State) : ∃ t, execSknp x s = .next t ∧ WritesWithin (.sknp x) s t := by
  rcases execSknp_cases x s with ⟨f, h⟩ | h | h
  · exact ⟨_, h, .takeFault f⟩
  · exact ⟨_, h, .column (e₀ := .key) rfl rfl⟩
  · exact ⟨_, h, .setPc _⟩

theorem execLdVxK_writesWithin (x : Reg) (s : State) : ∃ t, execLdVxK x s = .next t ∧ WritesWithin (.ldVxK x) s t := by
  rcases execLdVxK_cases x s with ⟨b, h⟩ | h
  · exact ⟨_, h, .trans (.setV (beq_self_eq_true x)) (.column (e₀ := .key) rfl rfl)⟩
  · exact ⟨_, h, .setPc _⟩

theorem execLdBVx_writesWithin (x : Reg) (s : State) : ∃ t, execLdBVx x s = .next t ∧ WritesWithin (.ldBVx x) s t := by
  unfold execLdBVx
  split
  · exact ⟨_, rfl, .takeFault _⟩
  · exact ⟨_, rfl, .column (e₀ := .mem) rfl (State.writeBytes_eq s _ _)⟩

theorem execLdMemVx_writesWithin (x : Reg) (s : State) :
    ∃ t, execLdMemVx x s = .next t ∧ WritesWithin (.ldMemVx x) s t := by
  unfold execLdMemVx
  split
  · exact ⟨_, rfl, .takeFault _⟩
  · exact ⟨_, rfl, .column (e₀ := .mem) rfl (State.writeBytes_eq s _ _)⟩

/-- Loading the first `x + 1` bytes keeps the registers above `x`. -/
theorem loadRegs_of_gt {bs : List Byte} {x r : Reg} (hbs : bs.length = x.val + 1) (hr : x < r) (v : Vector Byte 16) :
    (loadRegs bs 0 v)[r] = v[r] := by
  rw [Fin.getElem_fin, loadRegs_getElem, dif_neg, Fin.getElem_fin]
  have : x.val < r.val := hr
  omega

theorem execLdVxMem_writesWithin (x : Reg) (s : State) :
    ∃ t, execLdVxMem x s = .next t ∧ WritesWithin (.ldVxMem x) s t := by
  unfold execLdVxMem
  split
  · exact ⟨_, rfl, .takeFault _⟩
  · refine ⟨_, rfl, .withV fun r hr => loadRegs_of_gt (State.readBytes_length ..) ?_ s.v⟩
    simpa [Instr.writesReg] using hr

/-- The two writes of the arithmetic with a flag. -/
theorem WritesWithin.setVF_setV {i : Instr} {s : State} {x : Reg} {b c : Byte}
    (hw : i.writesReg = fun r => r == x || r == Reg.vf) : WritesWithin i s ((s.setVF b).setV x c) :=
  .trans (.setV (by simp [hw])) (.setV (by simp [hw]))

/-- Every instruction goes to a next state, and changes nothing on the way but what its row of R21 lets it write. -/
theorem exec_writesWithin (i : Instr) (s : State) : ∃ t, exec i s = .next t ∧ WritesWithin i s t := by
  cases i with
  | cls => exact ⟨_, rfl, .trans (.column (e₀ := .fb) rfl (by rfl)) (.column (e₀ := .dirty) rfl rfl)⟩
  | ret => exact execRet_writesWithin s
  | sys nnn => exact ⟨_, rfl, .setPc _⟩
  | jp nnn => exact ⟨_, rfl, .setPc _⟩
  | call nnn => exact execCall_writesWithin nnn s
  | seImm x kk => exact ⟨_, rfl, .skipIf _⟩
  | sneImm x kk => exact ⟨_, rfl, .skipIf _⟩
  | seReg x y => exact ⟨_, rfl, .skipIf _⟩
  | ldImm x kk => exact ⟨_, rfl, .setV (beq_self_eq_true x)⟩
  | addImm x kk => exact ⟨_, rfl, .setV (beq_self_eq_true x)⟩
  | ldReg x y => exact ⟨_, rfl, .setV (beq_self_eq_true x)⟩
  | or x y => exact ⟨_, rfl, .setV (beq_self_eq_true x)⟩
  | and x y => exact ⟨_, rfl, .setV (beq_self_eq_true x)⟩
  | xor x y => exact ⟨_, rfl, .setV (beq_self_eq_true x)⟩
  | addReg x y => exact ⟨_, rfl, .trans (.setV (by simp [Instr.writesReg])) (.setV (by simp [Instr.writesReg]))⟩
  | sub x y => exact exists_next_of_ite .takeFault (.setVF_setV rfl)
  | shr x y => exact exists_next_of_ite .takeFault (.setVF_setV rfl)
  | subn x y => exact exists_next_of_ite .takeFault (.setVF_setV rfl)
  | shl x y => exact exists_next_of_ite .takeFault (.setVF_setV rfl)
  | sneReg x y => exact ⟨_, rfl, .skipIf _⟩
  | ldI nnn => exact ⟨_, rfl, .column (e₀ := .i) rfl rfl⟩
  | jpV0 nnn => exact ⟨_, rfl, .setPc _⟩
  | rnd x kk => exact ⟨_, rfl, .trans .countDraw (.setV (beq_self_eq_true x))⟩
  | drw x y n => exact execDrw_writesWithin x y n s
  | skp x => exact execSkp_writesWithin x s
  | sknp x => exact execSknp_writesWithin x s
  | ldVxDt x => exact ⟨_, rfl, .setV (beq_self_eq_true x)⟩
  | ldVxK x => exact execLdVxK_writesWithin x s
  | ldDtVx x => exact ⟨_, rfl, .column (e₀ := .dt) rfl rfl⟩
  | ldStVx x => exact ⟨_, rfl, .column (e₀ := .st) rfl rfl⟩
  | addIVx x => exact exists_next_of_ite .takeFault (.column (e₀ := .i) rfl rfl)
  | ldFVx x => exact ⟨_, rfl, .column (e₀ := .i) rfl rfl⟩
  | ldBVx x => exact execLdBVx_writesWithin x s
  | ldMemVx x => exact execLdMemVx_writesWithin x s
  | ldVxMem x => exact execLdVxMem_writesWithin x s

theorem writesWithin_of_exec {i : Instr} {s t : State} (h : exec i s = .next t) : WritesWithin i s t := by
  obtain ⟨u, hu, hw⟩ := exec_writesWithin i s
  cases hu.symm.trans h
  exact hw

/-- Settles O16: every outcome of every instruction is a chain of updates that its row of R21 writes. -/
theorem instructionsWriteOnlyTheirColumns : Obligations.InstructionsWriteOnlyTheirColumns := by
  unfold Obligations.InstructionsWriteOnlyTheirColumns
  intro i s t h
  obtain ⟨hregs, hcolumns, hparams, hstatus, hdraws⟩ := writesWithin_of_exec h
  exact ⟨hregs, hcolumns, hparams, hstatus, hdraws⟩

/-! ### The latch (R15) and the dirty flag (R17) -/

/-- Settles O18: no other row of R21 writes the latch, and of the outcomes of these two the ones that write it clear it. -/
theorem latchIsClearedWholeOrKept : Obligations.LatchIsClearedWholeOrKept := by
  unfold Obligations.LatchIsClearedWholeOrKept
  intro i s t h
  have hkept : i.writesElement .key = false → t.key = s.key := (writesWithin_of_exec h).columns .key
  cases i with
  | sknp x =>
    rcases execSknp_cases x s with ⟨f, h'⟩ | h' | h' <;> cases h'.symm.trans h
    · exact .inl rfl
    · exact .inr ⟨s.clearKeys_pressed, x, .inl rfl⟩
    · exact .inl rfl
  | ldVxK x =>
    rcases execLdVxK_cases x s with ⟨b, h'⟩ | h' <;> cases h'.symm.trans h
    · exact .inr ⟨(s.setV x b).clearKeys_pressed, x, .inr rfl⟩
    · exact .inl rfl
  | _ => exact .inl (hkept rfl)

/-- Settles O19: no other row of R21 writes `dirty`; a `Dxyn` either faults and keeps it or completes and sets it. -/
theorem dirtyIsSetByDisplayInstructionsOnly : Obligations.DirtyIsSetByDisplayInstructionsOnly := by
  unfold Obligations.DirtyIsSetByDisplayInstructionsOnly
  intro i s t hrun h
  have hkept : i.writesElement .dirty = false → t.dirty = s.dirty := (writesWithin_of_exec h).columns .dirty
  cases i with
  | cls =>
    cases h
    simp [hrun]
  | drw x y n =>
    rcases execDrw_cases x y n s with ⟨f, h'⟩ | ⟨g, b, h'⟩ <;> cases h'.symm.trans h
    · simp
    · simp [hrun]
  | _ => simpa using hkept rfl

/-! ### Halted for good (R18, R103) -/

/-- A host command other than `new` keeps a halted block's record. -/
theorem command_keeps_halted {c : Command} {s : State} {f : FaultRecord} (h : s.status = .halted f) (hc : c ≠ .new) :
    (command c s).1.status = .halted f := by
  cases c with
  | new => exact absurd rfl hc
  | load bytes =>
    simp only [command, hostLoad]
    split
    · exact h
    · rw [State.writeBytes_eq]; exact h
  | cycle => simpa only [command, hostCycle_of_halted s h] using h
  | setKey k =>
    simp only [command, hostSetKey]
    split <;> exact h
  | readFramebuffer | readDirty | clearDirty | readSoundTimer | clearKeys => exact h

/-- Settles O15, by induction on the host's commands. -/
theorem haltedForGoodExceptConstruction : Obligations.HaltedForGoodExceptConstruction := by
  unfold Obligations.HaltedForGoodExceptConstruction
  intro cs
  induction cs with
  | nil => exact fun _ _ h _ => h
  | cons c cs ih =>
    intro s f h hnew
    obtain ⟨hc, hcs⟩ : Command.new ≠ c ∧ Command.new ∉ cs := by simpa using hnew
    exact ih (command c s).1 f (command_keeps_halted h (Ne.symm hc)) hcs

end Sys2Proof.Machine
end

section
/-! PROOFS. What an instruction depends on (the read columns of spec/10_state.md R21): the same instruction is run in two
states that agree on what its row lets it read. -/

namespace Sys2Proof.Machine

/-! ### Two runs side by side -/

/-- From `s₁` to `t₁` and from `s₂` to `t₂`, what has changed has become the same in both; `PC` and the status stay equal. -/
structure AgreeOrKeep (s₁ s₂ t₁ t₂ : State) : Prop where
  pc : s₁.pc = s₂.pc → t₁.pc = t₂.pc
  status : s₁.status = s₂.status → t₁.status = t₂.status
  regs : ∀ r, t₁.getV r = t₂.getV r ∨ (t₁.getV r = s₁.getV r ∧ t₂.getV r = s₂.getV r)
  columns : ∀ e, e ≠ .mem → Element.same t₁ t₂ e ∨ (Element.same s₁ t₁ e ∧ Element.same s₂ t₂ e)
  bytes : ∀ a, t₁.byte a = t₂.byte a ∨ (t₁.byte a = s₁.byte a ∧ t₂.byte a = s₂.byte a)

namespace AgreeOrKeep
variable {s₁ s₂ t₁ t₂ u₁ u₂ : State}

theorem refl (s₁ s₂ : State) : AgreeOrKeep s₁ s₂ s₁ s₂ :=
  ⟨id, id, fun _ => .inr ⟨rfl, rfl⟩, fun _ _ => .inr ⟨Element.same_refl .., Element.same_refl ..⟩, fun _ => .inr ⟨rfl, rfl⟩⟩

theorem trans (h : AgreeOrKeep s₁ s₂ t₁ t₂) (h' : AgreeOrKeep t₁ t₂ u₁ u₂) : AgreeOrKeep s₁ s₂ u₁ u₂ where
  pc hpc := h'.pc (h.pc hpc)
  status hst := h'.status (h.status hst)
  regs r := by
    rcases h'.regs r with hu | ⟨hu₁, hu₂⟩
    · exact .inl hu
    · rw [hu₁, hu₂]; exact h.regs r
  columns e he := by
    rcases h'.columns e he with hu | ⟨hu₁, hu₂⟩
    · exact .inl hu
    · rcases h.columns e he with ht | ⟨ht₁, ht₂⟩
      · exact .inl (Element.same_trans (Element.same_trans (Element.same_symm hu₁) ht) hu₂)
      · exact .inr ⟨Element.same_trans ht₁ hu₁, Element.same_trans ht₂ hu₂⟩
  bytes a := by
    rcases h'.bytes a with hu | ⟨hu₁, hu₂⟩
    · exact .inl hu
    · rw [hu₁, hu₂]; exact h.bytes a

/-- New register values, each the same in both runs or the old one. -/
theorem withV {v₁ v₂ : Vector Byte 16}
    (hv : ∀ r : Reg, v₁[r] = v₂[r] ∨ (v₁[r] = s₁.getV r ∧ v₂[r] = s₂.getV r)) :
    AgreeOrKeep s₁ s₂ { s₁ with v := v₁ } { s₂ with v := v₂ } :=
  ⟨id, id, hv, fun _ _ => .inr ⟨Element.same_withV .., Element.same_withV ..⟩, fun _ => .inr ⟨rfl, rfl⟩⟩

theorem setV {x : Reg} {b₁ b₂ : Byte} (hb : b₁ = b₂) : AgreeOrKeep s₁ s₂ (s₁.setV x b₁) (s₂.setV x b₂) := by
  refine withV fun r => ?_
  change (s₁.setV x b₁).getV r = (s₂.setV x b₂).getV r ∨
    ((s₁.setV x b₁).getV r = s₁.getV r ∧ (s₂.setV x b₂).getV r = s₂.getV r)
  by_cases hr : r = x <;> simp [hr, hb]

theorem setPc {a₁ a₂ : Word} (ha : s₁.pc = s₂.pc → a₁ = a₂) : AgreeOrKeep s₁ s₂ (s₁.setPc a₁) (s₂.setPc a₂) :=
  ⟨ha, id, fun _ => .inr ⟨rfl, rfl⟩, fun _ _ => .inr ⟨Element.same_setPc .., Element.same_setPc ..⟩,
    fun _ => .inr ⟨rfl, rfl⟩⟩

theorem skip : AgreeOrKeep s₁ s₂ s₁.skip s₂.skip := setPc (congrArg (· + 2#16))

theorem skipIf {c₁ c₂ : Bool} (hc : c₁ = c₂) : AgreeOrKeep s₁ s₂ (s₁.skipIf c₁) (s₂.skipIf c₂) := by
  subst hc
  cases c₁
  · exact refl s₁ s₂
  · exact skip

theorem countDraw : AgreeOrKeep s₁ s₂ s₁.countDraw s₂.countDraw :=
  ⟨id, id, fun _ => .inr ⟨rfl, rfl⟩, fun _ _ => .inr ⟨Element.same_countDraw .., Element.same_countDraw ..⟩,
    fun _ => .inr ⟨rfl, rfl⟩⟩

theorem takeFault (f : FaultRecord) : AgreeOrKeep s₁ s₂ (s₁.takeFault f) (s₂.takeFault f) :=
  ⟨fun _ => rfl, fun _ => rfl, fun _ => .inr ⟨rfl, rfl⟩,
    fun _ _ => .inr ⟨Element.same_takeFault .., Element.same_takeFault ..⟩, fun _ => .inr ⟨rfl, rfl⟩⟩

/-- An update of one column, by column and by byte. -/
theorem ofChangesOnly {e₀ : Element} (h₁ : ChangesOnly s₁ t₁ e₀) (h₂ : ChangesOnly s₂ t₂ e₀)
    (hsame : e₀ ≠ .mem → Element.same t₁ t₂ e₀)
    (hbytes : ∀ a, t₁.byte a = t₂.byte a ∨ (t₁.byte a = s₁.byte a ∧ t₂.byte a = s₂.byte a)) :
    AgreeOrKeep s₁ s₂ t₁ t₂ := by
  obtain ⟨-, hpc₁, hst₁, -⟩ := h₁.core
  obtain ⟨-, hpc₂, hst₂, -⟩ := h₂.core
  refine ⟨fun hpc => by rw [hpc₁, hpc₂, hpc], fun hst => by rw [hst₁, hst₂, hst], fun r => .inr ⟨h₁.getV r, h₂.getV r⟩,
    fun e he => ?_, hbytes⟩
  by_cases hee : e = e₀
  · subst hee; exact .inl (hsame he)
  · exact .inr ⟨h₁.same hee, h₂.same hee⟩

/-- An update of a column other than memory to the same contents. -/
theorem column {e₀ : Element} (h₁ : ChangesOnly s₁ t₁ e₀) (h₂ : ChangesOnly s₂ t₂ e₀) (hmem : Element.mem ≠ e₀)
    (hsame : Element.same t₁ t₂ e₀) : AgreeOrKeep s₁ s₂ t₁ t₂ :=
  ofChangesOnly h₁ h₂ (fun _ => hsame) fun a => .inr ⟨h₁.same hmem a, h₂.same hmem a⟩

theorem setI {a₁ a₂ : Word} (ha : a₁ = a₂) : AgreeOrKeep s₁ s₂ (s₁.setI a₁) (s₂.setI a₂) :=
  column (e₀ := .i) rfl rfl nofun ha.symm

theorem setDt {b₁ b₂ : Byte} (hb : b₁ = b₂) : AgreeOrKeep s₁ s₂ (s₁.setDt b₁) (s₂.setDt b₂) :=
  column (e₀ := .dt) rfl rfl nofun hb.symm

theorem setSt {b₁ b₂ : Byte} (hb : b₁ = b₂) : AgreeOrKeep s₁ s₂ (s₁.setSt b₁) (s₂.setSt b₂) :=
  column (e₀ := .st) rfl rfl nofun hb.symm

theorem setFb (f : Framebuffer) : AgreeOrKeep s₁ s₂ (s₁.setFb f) (s₂.setFb f) :=
  column (e₀ := .fb) rfl rfl nofun rfl

theorem setDirty (b : Bool) : AgreeOrKeep s₁ s₂ (s₁.setDirty b) (s₂.setDirty b) :=
  column (e₀ := .dirty) rfl rfl nofun rfl

theorem clearKeys : AgreeOrKeep s₁ s₂ s₁.clearKeys s₂.clearKeys :=
  column (e₀ := .key) rfl rfl nofun rfl

/-- The same bytes written at the same address, in two canonical memories. -/
theorem writeBytes {a : Nat} {bs : List Byte} (ha : a + bs.length ≤ memSize) (hm₁ : Memory.wf s₁.params.font s₁.mem)
    (hm₂ : Memory.wf s₂.params.font s₂.mem) : AgreeOrKeep s₁ s₂ (s₁.writeBytes a bs) (s₂.writeBytes a bs) := by
  refine ofChangesOnly (e₀ := .mem) (State.writeBytes_eq ..) (State.writeBytes_eq ..) (fun h => absurd rfl h) fun c => ?_
  rw [State.writeBytes_byte s₁ a bs ha hm₁, State.writeBytes_byte s₂ a bs ha hm₂]
  split
  · exact .inl rfl
  · exact .inr ⟨rfl, rfl⟩

end AgreeOrKeep

/-- Both runs go to a next state, and what they change becomes the same in both. -/
def PairedNext (s₁ s₂ : State) (o₁ o₂ : Host.Outcome State Fault Refusal) : Prop :=
  ∃ t₁ t₂, o₁ = .next t₁ ∧ o₂ = .next t₂ ∧ AgreeOrKeep s₁ s₂ t₁ t₂

section
variable {s₁ s₂ u₁ u₂ : State} {kind : FaultKind} {info : Option Nat} {i : Instr}

theorem AgreeOrKeep.paired (h : AgreeOrKeep s₁ s₂ u₁ u₂) : PairedNext s₁ s₂ (.next u₁) (.next u₂) :=
  ⟨u₁, u₂, rfl, rfl, h⟩

theorem PairedNext.raise (hpc : s₁.pc = s₂.pc) :
    PairedNext s₁ s₂ (Machine.raise kind info i s₁) (Machine.raise kind info i s₂) := by
  unfold Machine.raise State.pc0
  rw [hpc]
  exact (AgreeOrKeep.takeFault _).paired

/-- Two runs that are refused on equivalent conditions. -/
theorem PairedNext.ite {c₁ c₂ : Prop} [Decidable c₁] [Decidable c₂] (hc : c₁ ↔ c₂) (hpc : s₁.pc = s₂.pc)
    (hu : AgreeOrKeep s₁ s₂ u₁ u₂) :
    PairedNext s₁ s₂ (if c₁ then Machine.raise kind info i s₁ else .next u₁)
      (if c₂ then Machine.raise kind info i s₂ else .next u₂) := by
  by_cases h : c₁
  · rw [if_pos h, if_pos (hc.1 h)]; exact .raise hpc
  · rw [if_neg h, if_neg (mt hc.2 h)]; exact hu.paired

end

/-! ### What a reader of the state depends on -/

section
variable {s₁ s₂ : State}

theorem State.refusesVf_congr (h : s₂.params = s₁.params) (xs : List Reg) : s₂.refusesVf xs = s₁.refusesVf xs := by
  simp only [State.refusesVf, h]

theorem State.rangeFault_congr (h : s₂.i = s₁.i) (n : Nat) : s₂.rangeFault n = s₁.rangeFault n := by
  simp only [State.rangeFault, State.ea, h]

theorem State.ea_congr (h : s₂.i = s₁.i) (j : Nat) : s₂.ea j = s₁.ea j := by
  simp only [State.ea, h]

theorem State.readBytes_congr (h : ∀ a, s₂.byte a = s₁.byte a) (a n : Nat) : s₂.readBytes a n = s₁.readBytes a n := by
  induction n generalizing a with
  | zero => rfl
  | succ n ih => rw [State.readBytes, State.readBytes, h, ih]

theorem State.regsUpTo_congr {x : Reg} (h : ∀ r, r ≤ x → s₂.getV r = s₁.getV r) : s₂.regsUpTo x = s₁.regsUpTo x := by
  refine List.ext_getElem (by simp only [State.regsUpTo_length]) fun r hr₂ hr₁ => ?_
  rw [State.regsUpTo_getElem, State.regsUpTo_getElem]
  rw [State.regsUpTo_length] at hr₁
  exact h _ (Fin.mk_le_of_le_val (by omega))

theorem State.pressed_congr (h : s₂.key = s₁.key) : s₂.pressed = s₁.pressed := by
  funext k
  simp only [State.pressed, h]

theorem State.firstPressed_congr (h : s₂.key = s₁.key) : s₂.firstPressed = s₁.firstPressed := by
  simp only [State.firstPressed, State.pressed_congr h]

end

/-- A register that the loaded bytes reach takes the same byte whatever it held. -/
theorem loadRegs_of_le {bs : List Byte} {x r : Reg} (hbs : bs.length = x.val + 1) (hr : r ≤ x) (v₁ v₂ : Vector Byte 16) :
    (loadRegs bs 0 v₁)[r] = (loadRegs bs 0 v₂)[r] := by
  have hlt : 0 ≤ r.val ∧ r.val < 0 + bs.length := by
    have : r.val ≤ x.val := hr
    omega
  rw [Fin.getElem_fin, Fin.getElem_fin, loadRegs_getElem, loadRegs_getElem, dif_pos hlt, dif_pos hlt]

/-! ### Read columns (R21) -/

/-- Two states with canonical memory that agree on `PC`, the parameters, the draw and what `i` may read. -/
structure AgreeOnReads (i : Instr) (s₁ s₂ : State) : Prop where
  wf₁ : Memory.wf s₁.params.font s₁.mem
  wf₂ : Memory.wf s₂.params.font s₂.mem
  pc : s₁.pc = s₂.pc
  params : s₂.params = s₁.params
  draws : s₂.draws = s₁.draws
  regs : ∀ r, i.readsReg r = true → s₂.getV r = s₁.getV r
  columns : ∀ e, i.readsElement e = true → Element.same s₁ s₂ e

section
variable {s₁ s₂ : State} {x y : Reg}

theorem execRet_paired (h : AgreeOnReads .ret s₁ s₂) : PairedNext s₁ s₂ (execRet s₁) (execRet s₂) := by
  obtain ⟨hstack, hsp⟩ : s₂.stack = s₁.stack ∧ s₂.sp = s₁.sp := h.columns .stack rfl
  rcases Nat.eq_zero_or_pos s₁.sp.val with hs | hs
  · simp only [execRet, (State.pop_eq_none s₁).2 hs, (State.pop_eq_none s₂).2 (hsp ▸ hs)]
    exact .raise h.pc
  · simp only [execRet, State.pop_of_pos s₁ hs, State.pop_of_pos s₂ (hsp ▸ hs), hstack, hsp]
    refine (AgreeOrKeep.trans (.column (e₀ := .stack) ?_ ?_ nofun ?_) (.setPc fun _ => rfl)).paired
    · rfl
    · rfl
    · exact ⟨rfl, rfl⟩

theorem execCall_paired {nnn : BitVec 12} (h : AgreeOnReads (.call nnn) s₁ s₂) :
    PairedNext s₁ s₂ (execCall nnn s₁) (execCall nnn s₂) := by
  obtain ⟨hstack, hsp⟩ : s₂.stack = s₁.stack ∧ s₂.sp = s₁.sp := h.columns .stack rfl
  by_cases hs : s₁.sp.val < 16
  · simp only [execCall, State.push_of_lt s₁ _ hs, State.push_of_lt s₂ _ (hsp ▸ hs), hstack, hsp]
    refine (AgreeOrKeep.trans (.column (e₀ := .stack) ?_ ?_ nofun ?_) (.setPc fun _ => rfl)).paired
    · rfl
    · rfl
    · exact ⟨by simp only [h.pc], rfl⟩
  · have hs₁ : s₁.sp.val = 16 := by omega
    simp only [execCall, (State.push_eq_none s₁ _).2 hs₁, (State.push_eq_none s₂ _).2 (hsp ▸ hs₁)]
    exact .raise h.pc

/-- A flag and a result computed from the same operands, unless the execution is refused in both. -/
theorem AgreeOnReads.ite_setVF_setV {i : Instr} (h : AgreeOnReads i s₁ s₂) {xs : List Reg} {b₁ b₂ c₁ c₂ : Byte}
    (hb : b₁ = b₂) (hc : c₁ = c₂) :
    PairedNext s₁ s₂ (if s₁.refusesVf xs then raise .unmodelled none i s₁ else .next ((s₁.setVF b₁).setV x c₁))
      (if s₂.refusesVf xs then raise .unmodelled none i s₂ else .next ((s₂.setVF b₂).setV x c₂)) :=
  .ite (by rw [State.refusesVf_congr h.params]) h.pc (.trans (.setV hb) (.setV hc))

theorem execSub_paired (h : AgreeOnReads (.sub x y) s₁ s₂) : PairedNext s₁ s₂ (execSub x y s₁) (execSub x y s₂) := by
  have hx : s₂.getV x = s₁.getV x := h.regs x (by simp [Instr.readsReg])
  have hy : s₂.getV y = s₁.getV y := h.regs y (by simp [Instr.readsReg])
  exact h.ite_setVF_setV (by rw [hx, hy]) (by simp [hx, hy])

theorem execSubn_paired (h : AgreeOnReads (.subn x y) s₁ s₂) :
    PairedNext s₁ s₂ (execSubn x y s₁) (execSubn x y s₂) := by
  have hx : s₂.getV x = s₁.getV x := h.regs x (by simp [Instr.readsReg])
  have hy : s₂.getV y = s₁.getV y := h.regs y (by simp [Instr.readsReg])
  exact h.ite_setVF_setV (by rw [hx, hy]) (by simp [hx, hy])

theorem execShr_paired (h : AgreeOnReads (.shr x y) s₁ s₂) : PairedNext s₁ s₂ (execShr x y s₁) (execShr x y s₂) := by
  have hx : s₂.getV x = s₁.getV x := h.regs x (beq_self_eq_true x)
  exact h.ite_setVF_setV (by rw [hx]) (by simp [hx])

theorem execShl_paired (h : AgreeOnReads (.shl x y) s₁ s₂) : PairedNext s₁ s₂ (execShl x y s₁) (execShl x y s₂) := by
  have hx : s₂.getV x = s₁.getV x := h.regs x (beq_self_eq_true x)
  exact h.ite_setVF_setV (by rw [hx]) (by simp [hx])

theorem execDrw_paired {n : BitVec 4} (h : AgreeOnReads (.drw x y n) s₁ s₂) :
    PairedNext s₁ s₂ (execDrw x y n s₁) (execDrw x y n s₂) := by
  have hx : s₂.getV x = s₁.getV x := h.regs x (by simp [Instr.readsReg])
  have hy : s₂.getV y = s₁.getV y := h.regs y (by simp [Instr.readsReg])
  have hi : s₂.i = s₁.i := h.columns .i rfl
  have hfb : s₂.fb = s₁.fb := h.columns .fb rfl
  have hmem : ∀ a, s₂.byte a = s₁.byte a := h.columns .mem rfl
  simp only [execDrw, State.refusesVf_congr h.params, State.rangeFault_congr hi, State.ea_congr hi,
    State.readBytes_congr hmem, hx, hy, hfb]
  split
  · exact .raise h.pc
  · cases s₁.rangeFault n.toNat with
    | some a => exact .raise h.pc
    | none => exact (AgreeOrKeep.trans (.trans (.setFb _) (.setV rfl)) (.setDirty true)).paired

theorem execAddIVx_paired (h : AgreeOnReads (.addIVx x) s₁ s₂) :
    PairedNext s₁ s₂ (execAddIVx x s₁) (execAddIVx x s₂) := by
  have hx : s₂.getV x = s₁.getV x := h.regs x (beq_self_eq_true x)
  have hi : s₂.i = s₁.i := h.columns .i rfl
  exact .ite (by rw [hx, hi, h.params]) h.pc (.setI (by rw [hx, hi]))

theorem execSkp_paired (h : AgreeOnReads (.skp x) s₁ s₂) : PairedNext s₁ s₂ (execSkp x s₁) (execSkp x s₂) := by
  have hx : s₂.getV x = s₁.getV x := h.regs x (beq_self_eq_true x)
  have hkey : s₂.key = s₁.key := h.columns .key rfl
  simp only [execSkp, hx, State.pressed_congr hkey]
  cases keyOf (s₁.getV x) with
  | none => exact .raise h.pc
  | some k => exact (AgreeOrKeep.skipIf rfl).paired

theorem execSknp_paired (h : AgreeOnReads (.sknp x) s₁ s₂) : PairedNext s₁ s₂ (execSknp x s₁) (execSknp x s₂) := by
  have hx : s₂.getV x = s₁.getV x := h.regs x (beq_self_eq_true x)
  have hkey : s₂.key = s₁.key := h.columns .key rfl
  simp only [execSknp, hx, State.pressed_congr hkey]
  cases keyOf (s₁.getV x) with
  | none => exact .raise h.pc
  | some k =>
    dsimp only
    split
    · exact AgreeOrKeep.clearKeys.paired
    · exact AgreeOrKeep.skip.paired

theorem execLdVxK_paired (h : AgreeOnReads (.ldVxK x) s₁ s₂) : PairedNext s₁ s₂ (execLdVxK x s₁) (execLdVxK x s₂) := by
  have hkey : s₂.key = s₁.key := h.columns .key rfl
  simp only [execLdVxK, State.firstPressed_congr hkey]
  cases s₁.firstPressed with
  | some k => exact (AgreeOrKeep.trans (.setV rfl) .clearKeys).paired
  | none => exact (AgreeOrKeep.setPc (congrArg (· - 2#16))).paired

theorem execLdBVx_paired (h : AgreeOnReads (.ldBVx x) s₁ s₂) : PairedNext s₁ s₂ (execLdBVx x s₁) (execLdBVx x s₂) := by
  have hx : s₂.getV x = s₁.getV x := h.regs x (beq_self_eq_true x)
  have hi : s₂.i = s₁.i := h.columns .i rfl
  simp only [execLdBVx, State.rangeFault_congr hi, State.ea_congr hi, hx]
  cases hr : s₁.rangeFault 3 with
  | some a => exact .raise h.pc
  | none =>
    have hrange : s₁.ea 0 + (decimalDigits (s₁.getV x)).length ≤ memSize := by
      simpa [decimalDigits] using (s₁.rangeFault_eq_none 3).1 hr
    exact (AgreeOrKeep.writeBytes hrange h.wf₁ h.wf₂).paired

theorem execLdMemVx_paired (h : AgreeOnReads (.ldMemVx x) s₁ s₂) :
    PairedNext s₁ s₂ (execLdMemVx x s₁) (execLdMemVx x s₂) := by
  have hregs : s₂.regsUpTo x = s₁.regsUpTo x := State.regsUpTo_congr fun r hr => h.regs r (decide_eq_true hr)
  have hi : s₂.i = s₁.i := h.columns .i rfl
  simp only [execLdMemVx, State.rangeFault_congr hi, State.ea_congr hi, hregs]
  cases hr : s₁.rangeFault (x.val + 1) with
  | some a => exact .raise h.pc
  | none =>
    have hrange : s₁.ea 0 + (s₁.regsUpTo x).length ≤ memSize := by
      simpa [State.regsUpTo_length] using (s₁.rangeFault_eq_none _).1 hr
    exact (AgreeOrKeep.writeBytes hrange h.wf₁ h.wf₂).paired

theorem execLdVxMem_paired (h : AgreeOnReads (.ldVxMem x) s₁ s₂) :
    PairedNext s₁ s₂ (execLdVxMem x s₁) (execLdVxMem x s₂) := by
  have hi : s₂.i = s₁.i := h.columns .i rfl
  have hmem : ∀ a, s₂.byte a = s₁.byte a := h.columns .mem rfl
  simp only [execLdVxMem, State.rangeFault_congr hi, State.ea_congr hi, State.readBytes_congr hmem]
  cases s₁.rangeFault (x.val + 1) with
  | some a => exact .raise h.pc
  | none =>
    refine (AgreeOrKeep.withV fun r => ?_).paired
    have hlen := s₁.readBytes_length (s₁.ea 0) (x.val + 1)
    by_cases hr : r ≤ x
    · exact .inl (loadRegs_of_le hlen hr _ _)
    · exact .inr ⟨loadRegs_of_gt hlen (not_le.1 hr) _, loadRegs_of_gt hlen (not_le.1 hr) _⟩

end

/-- Run in two states that agree on what it reads, an instruction changes them in the same way. -/
theorem exec_paired {i : Instr} {s₁ s₂ : State} (h : AgreeOnReads i s₁ s₂) : PairedNext s₁ s₂ (exec i s₁) (exec i s₂) := by
  have hreg : ∀ r, i.readsReg r = true → s₁.getV r = s₂.getV r := fun r hr => (h.regs r hr).symm
  cases i with
  | cls => exact (AgreeOrKeep.trans (.setFb _) (.setDirty true)).paired
  | ret => exact execRet_paired h
  | sys nnn => exact (AgreeOrKeep.setPc fun _ => rfl).paired
  | jp nnn => exact (AgreeOrKeep.setPc fun _ => rfl).paired
  | call nnn => exact execCall_paired h
  | seImm x kk => exact (AgreeOrKeep.skipIf (by simp [hreg, Instr.readsReg])).paired
  | sneImm x kk => exact (AgreeOrKeep.skipIf (by simp [hreg, Instr.readsReg])).paired
  | seReg x y => exact (AgreeOrKeep.skipIf (by simp [hreg, Instr.readsReg])).paired
  | ldImm x kk => exact (AgreeOrKeep.setV rfl).paired
  | addImm x kk => exact (AgreeOrKeep.setV (by simp [hreg, Instr.readsReg])).paired
  | ldReg x y => exact (AgreeOrKeep.setV (by simp [hreg, Instr.readsReg])).paired
  | or x y => exact (AgreeOrKeep.setV (by simp [hreg, Instr.readsReg])).paired
  | and x y => exact (AgreeOrKeep.setV (by simp [hreg, Instr.readsReg])).paired
  | xor x y => exact (AgreeOrKeep.setV (by simp [hreg, Instr.readsReg])).paired
  | addReg x y =>
    exact (AgreeOrKeep.trans (.setV (by simp [hreg, Instr.readsReg])) (.setV (by simp [hreg, Instr.readsReg]))).paired
  | sub x y => exact execSub_paired h
  | shr x y => exact execShr_paired h
  | subn x y => exact execSubn_paired h
  | shl x y => exact execShl_paired h
  | sneReg x y => exact (AgreeOrKeep.skipIf (by simp [hreg, Instr.readsReg])).paired
  | ldI nnn => exact (AgreeOrKeep.setI rfl).paired
  | jpV0 nnn => exact (AgreeOrKeep.setPc fun _ => by simp [hreg, Instr.readsReg]).paired
  | rnd x kk => exact (AgreeOrKeep.trans .countDraw (.setV (by simp [State.draw, h.draws]))).paired
  | drw x y n => exact execDrw_paired h
  | skp x => exact execSkp_paired h
  | sknp x => exact execSknp_paired h
  | ldVxDt x => exact (AgreeOrKeep.setV (h.columns .dt rfl).symm).paired
  | ldVxK x => exact execLdVxK_paired h
  | ldDtVx x => exact (AgreeOrKeep.setDt (hreg x (beq_self_eq_true x))).paired
  | ldStVx x => exact (AgreeOrKeep.setSt (hreg x (beq_self_eq_true x))).paired
  | addIVx x => exact execAddIVx_paired h
  | ldFVx x => exact (AgreeOrKeep.setI (by simp [hreg, Instr.readsReg])).paired
  | ldBVx x => exact execLdBVx_paired h
  | ldMemVx x => exact execLdMemVx_paired h
  | ldVxMem x => exact execLdVxMem_paired h

/-- Settles O17: by cases on the instruction, every update on the way is of the same value in both runs. -/
theorem instructionsReadOnlyTheirColumns : Obligations.InstructionsReadOnlyTheirColumns := by
  unfold Obligations.InstructionsReadOnlyTheirColumns
  intro i s₁ s₂ hinv₁ hinv₂ hpc hparams hdraws hstatus hregs hcolumns
  obtain ⟨t₁, t₂, ht₁, ht₂, h⟩ := exec_paired (i := i)
    ⟨hinv₁.memory, hinv₂.memory, hpc, hparams.symm, hdraws.symm, fun r hr => (hregs r hr).symm, hcolumns⟩
  exact ⟨t₁, t₂, ht₁, ht₂, h.pc hpc, h.status hstatus, h.regs, h.columns, h.bytes⟩

end Sys2Proof.Machine
end

section
/-! PROOFS. The memory family (spec/20_memory.md): the invariant of memory, `PC`, return addresses and fault record that
every step keeps (R23), stored bytes as instructions (R36), and the font after construction (R25). -/

namespace Sys2Proof.Machine

/-! ### What keeps the invariant -/

namespace Inv
variable {s t : State}

/-- The invariant speaks of memory, `PC`, the stack's slots, the status and the parameters only. -/
theorem withData (h : Inv s)
    (ht : t = { s with v := t.v, i := t.i, sp := t.sp, dt := t.dt, st := t.st, key := t.key, fb := t.fb,
                       dirty := t.dirty, draws := t.draws }) : Inv t := by
  rw [ht]
  exact ⟨h.memory, h.pc, h.stack, h.halted⟩

/-- A jump of a running block. -/
theorem setPc (h : Inv s) (hr : s.status = .running) {a : Word} (ha : a.toNat ≤ 0x10FE) : Inv (s.setPc a) :=
  ⟨h.memory, ha, h.stack, fun f hf => by rw [State.setPc_status, hr] at hf; cases hf⟩

/-- A fault's record names the address that `PC` is put back to (R94). -/
theorem takeFault (h : Inv s) {f : FaultRecord} (hf : f.pc.toNat ≤ 0x10FE) : Inv (s.takeFault f) :=
  ⟨h.memory, hf, h.stack, fun _ hg => by cases hg; rfl⟩

/-- A write inside memory (R23). -/
theorem writeBytes (h : Inv s) {a : Nat} {bs : List Byte} (ha : a + bs.length ≤ memSize) : Inv (s.writeBytes a bs) := by
  rw [State.writeBytes_eq]
  exact ⟨State.writeBytes_wf s a bs ha h.memory, h.pc, h.stack, h.halted⟩

/-- A return address put in a slot, at any new depth (R60). -/
theorem storeReturn (h : Inv s) {a : Word} (ha : a.toNat ≤ 0x1000) (k : Fin 16) (d : Fin 17) :
    Inv { s with stack := s.stack.set k a, sp := d } := by
  refine ⟨h.memory, h.pc, fun j => ?_, h.halted⟩
  by_cases hj : k.val = j.val
  · simpa [hj] using ha
  · simpa [Vector.getElem_set, hj] using h.stack j

theorem endCycle (h : Inv s) : Inv s.endCycle := by
  unfold State.endCycle
  split
  · exact h.withData rfl
  · exact h

end Inv

/-- The outcome is a next state of the invariant. -/
def NextInv (o : Host.Outcome State Fault Refusal) : Prop := ∃ t, o = .next t ∧ Inv t

theorem Inv.next {t : State} (h : Inv t) : NextInv (.next t) := ⟨t, rfl, h⟩

/-! ### What an instruction sees -/

/-- A 12-bit address is below the bound of `PC` (R11). -/
theorem zextNnn_le (nnn : BitVec 12) : (zextNnn nnn).toNat ≤ 0x10FE := by
  have := nnn.isLt
  rw [zextNnn_toNat]
  omega

/-- A running state of the invariant whose `PC` has just been advanced past a fetched word (R51, R52). -/
structure Advanced (s : State) : Prop extends Inv s where
  running : s.status = .running
  two_le_pc : 2 ≤ s.pc.toNat
  pc_le : s.pc.toNat ≤ 0x1000

theorem Inv.advance {s : State} (h : Inv s) (hr : s.status = .running) (hpc : s.pc.toNat ≤ 4094) :
    Advanced s.advance := by
  have hadd : (s.pc + 2#16).toNat = s.pc.toNat + 2 := by
    rw [BitVec.toNat_add, BitVec.toNat_ofNat]; omega
  exact ⟨h.setPc hr (by omega), hr, by simp [hadd], by simp [hadd, hpc]⟩

namespace Advanced
variable {s : State}

theorem skip (h : Advanced s) : Inv s.skip := by
  refine h.toInv.setPc h.running ?_
  have := h.pc_le
  rw [BitVec.toNat_add, BitVec.toNat_ofNat]
  omega

theorem skipIf (h : Advanced s) (c : Bool) : NextInv (.next (s.skipIf c)) := by
  cases c
  · exact h.toInv.next
  · exact h.skip.next

/-- The fetch address that a rewind and a fault go back to. -/
theorem pc0_le (h : Advanced s) : s.pc0.toNat ≤ 0x10FE := by
  have hle := h.pc_le
  have hge := h.two_le_pc
  rw [State.pc0, BitVec.toNat_sub, BitVec.toNat_ofNat]
  omega

theorem rewind (h : Advanced s) : Inv s.rewind := h.toInv.setPc h.running h.pc0_le

theorem raise (h : Advanced s) (kind : FaultKind) (info : Option Nat) (i : Instr) :
    NextInv (Machine.raise kind info i s) := (h.toInv.takeFault h.pc0_le).next

/-- An instruction that a condition on its operands refuses. -/
theorem ite (h : Advanced s) {c : Prop} [Decidable c] {kind : FaultKind} {info : Option Nat} {i : Instr} {u : State}
    (hu : Inv u) : NextInv (if c then Machine.raise kind info i s else .next u) := by
  split
  · exact h.raise ..
  · exact hu.next

end Advanced

/-! ### Each instruction keeps the invariant -/

section
variable {s : State}

theorem execRet_nextInv (h : Advanced s) : NextInv (execRet s) := by
  rcases Nat.eq_zero_or_pos s.sp.val with hs | hs
  · simp only [execRet, (State.pop_eq_none s).2 hs]
    exact h.raise ..
  · simp only [execRet, State.pop_of_pos s hs]
    have htop := h.stack ⟨s.sp.val - 1, by omega⟩
    have hpopped : Inv { s with sp := ⟨s.sp.val - 1, by omega⟩ } := h.toInv.withData rfl
    exact (hpopped.setPc h.running (htop.trans (by decide))).next

theorem execCall_nextInv (h : Advanced s) (nnn : BitVec 12) : NextInv (execCall nnn s) := by
  by_cases hs : s.sp.val < 16
  · simp only [execCall, State.push_of_lt s s.pc hs]
    have hpushed := h.toInv.storeReturn h.pc_le ⟨s.sp.val, hs⟩ ⟨s.sp.val + 1, by omega⟩
    exact (hpushed.setPc h.running (zextNnn_le nnn)).next
  · simp only [execCall, (State.push_eq_none s s.pc).2 (by omega)]
    exact h.raise ..

/-- The largest `PC`: `nnn` = 0xFFF and `V[0]` = 0xFF (R65, R11). -/
theorem execJpV0_nextInv (h : Advanced s) (nnn : BitVec 12) : NextInv (execJpV0 nnn s) := by
  refine (h.toInv.setPc h.running ?_).next
  have := nnn.isLt
  have := (s.getV 0).isLt
  rw [BitVec.toNat_add, zextNnn_toNat, zextByte_toNat]
  omega

theorem execDrw_nextInv (h : Advanced s) (x y : Reg) (n : BitVec 4) : NextInv (execDrw x y n s) := by
  unfold execDrw
  split
  · exact h.raise ..
  · split
    · exact h.raise ..
    · exact (h.toInv.withData rfl).next

theorem execSkp_nextInv (h : Advanced s) (x : Reg) : NextInv (execSkp x s) := by
  unfold execSkp
  split
  · exact h.raise ..
  · exact h.skipIf _

theorem execSknp_nextInv (h : Advanced s) (x : Reg) : NextInv (execSknp x s) := by
  unfold execSknp
  split
  · exact h.raise ..
  · split
    · exact (h.toInv.withData rfl).next
    · exact h.skip.next

theorem execLdVxK_nextInv (h : Advanced s) (x : Reg) : NextInv (execLdVxK x s) := by
  rcases execLdVxK_cases x s with ⟨b, hb⟩ | hb <;> rw [hb]
  · exact (h.toInv.withData rfl).next
  · exact h.rewind.next

theorem execLdBVx_nextInv (h : Advanced s) (x : Reg) : NextInv (execLdBVx x s) := by
  unfold execLdBVx
  split
  · exact h.raise ..
  · next hr =>
    have hrange := (s.rangeFault_eq_none 3).1 hr
    exact (h.toInv.writeBytes (by simpa [decimalDigits] using hrange)).next

theorem execLdMemVx_nextInv (h : Advanced s) (x : Reg) : NextInv (execLdMemVx x s) := by
  unfold execLdMemVx
  split
  · exact h.raise ..
  · next hr =>
    have hrange := (s.rangeFault_eq_none (x.val + 1)).1 hr
    exact (h.toInv.writeBytes (by simpa [State.regsUpTo_length] using hrange)).next

theorem execLdVxMem_nextInv (h : Advanced s) (x : Reg) : NextInv (execLdVxMem x s) := by
  unfold execLdVxMem
  split
  · exact h.raise ..
  · exact (h.toInv.withData rfl).next

/-- Every instruction answers a next state of the invariant. -/
theorem exec_nextInv (h : Advanced s) (i : Instr) : NextInv (exec i s) := by
  cases i with
  | ret => exact execRet_nextInv h
  | sys nnn | jp nnn => exact (h.toInv.setPc h.running (zextNnn_le nnn)).next
  | call nnn => exact execCall_nextInv h nnn
  | seImm x kk | sneImm x kk | seReg x y | sneReg x y => exact h.skipIf _
  | sub x y | shr x y | subn x y | shl x y | addIVx x => exact h.ite (h.toInv.withData rfl)
  | jpV0 nnn => exact execJpV0_nextInv h nnn
  | drw x y n => exact execDrw_nextInv h x y n
  | skp x => exact execSkp_nextInv h x
  | sknp x => exact execSknp_nextInv h x
  | ldVxK x => exact execLdVxK_nextInv h x
  | ldBVx x => exact execLdBVx_nextInv h x
  | ldMemVx x => exact execLdMemVx_nextInv h x
  | ldVxMem x => exact execLdVxMem_nextInv h x
  | cls | ldImm | addImm | ldReg | or | and | xor | addReg | ldI | rnd | ldVxDt | ldDtVx | ldStVx | ldFVx =>
    exact (h.toInv.withData rfl).next

end

/-- A fault of the fetch or of the decoder names the address at `PC` (R50, R96). -/
theorem State.fetchInstr_error_pc {s : State} {f : FaultRecord} (h : s.fetchInstr = .error f) : f.pc = s.pc := by
  rcases (s.fetchInstr_eq_error f).1 h with ⟨-, rfl⟩ | ⟨-, -, rfl⟩ <;> rfl

/-- Settles O12: a step takes a fault at `PC`, or runs an instruction on the advanced state and ticks. -/
theorem stepKeepsTheInvariant : Obligations.StepKeepsTheInvariant := by
  unfold Obligations.StepKeepsTheInvariant
  intro s t h hstep
  obtain ⟨hrun, ⟨f, hf, rfl⟩ | ⟨i, u, ⟨hpc, -⟩, hu, rfl⟩⟩ := step_next_cases hstep
  · exact h.takeFault (State.fetchInstr_error_pc hf ▸ h.pc)
  · obtain ⟨u', hu', hinv⟩ := exec_nextInv (h.advance hrun hpc) i
    cases hu'.symm.trans hu
    exact hinv.endCycle

/-! ### Stored bytes are instructions (R36) -/

/-- `Fx55` inside memory stores `V[0]` to `V[x]` from `I` up (R83). -/
theorem exec_ldMemVx_of_le {s : State} {x : Reg} (h : s.i.toNat + x.val ≤ 4095) :
    exec (.ldMemVx x) s = .next (s.writeBytes s.i.toNat (s.regsUpTo x)) := by
  have hr : s.rangeFault (x.val + 1) = none := (s.rangeFault_eq_none _).2 (.inr (by simp only [memSize]; omega))
  simp only [exec, execLdMemVx, hr, State.ea, Nat.add_zero]

/-- Register `r` of those stored from `a` up is the byte at `a + r` (R83). -/
theorem State.writeBytes_regsUpTo_byte {s : State} {x : Reg} {a : Nat} (hm : Memory.wf s.params.font s.mem)
    (ha : a + x.val ≤ 4095) {r : Reg} (hr : r ≤ x) : (s.writeBytes a (s.regsUpTo x)).byte (a + r.val) = s.getV r := by
  have hlen := s.regsUpTo_length x
  have hrx : r.val ≤ x.val := hr
  rw [State.writeBytes_byte s a _ (by simp only [memSize]; omega) hm, dif_pos ⟨by omega, by omega⟩,
    State.regsUpTo_getElem]
  simp

/-- Settles O22: the fetch at `I` reads back registers 0 and 1. -/
theorem storedBytesAreFetched : Obligations.StoredBytesAreFetched := by
  unfold Obligations.StoredBytesAreFetched
  intro s x h hx hi
  refine ⟨_, exec_ldMemVx_of_le hi, ?_⟩
  have h0 := State.writeBytes_regsUpTo_byte h.memory hi (Fin.zero_le x)
  have h1 := State.writeBytes_regsUpTo_byte h.memory hi (r := 1) hx
  refine (State.fetchWord_of_le _ (by dsimp only; omega)).trans ?_
  exact congrArg Except.ok (congrArg₂ wordOfBytes h0 h1)

/-! ### The font (R25) -/

/-- Construction leaves FONT's bytes at 0 to 79 (R123). -/
theorem State.construct_byte_of_lt (p : Params) {a : Nat} (ha : a < 80) : (State.construct p).byte a = p.font[a] :=
  dif_pos ha

/-- Settles O53: `Fx29` leaves `I` at five times the digit, and no register write has changed memory. -/
theorem digitAddressesPointIntoTheFont : Obligations.DigitAddressesPointIntoTheFont := by
  unfold Obligations.DigitAddressesPointIntoTheFont
  intro p x d row hd hr
  refine ⟨_, rfl, ?_⟩
  have hi : (fontAddress (((State.construct p).setV x (BitVec.ofNat 8 d)).getV x)).toNat = 5 * d := by
    rw [fontAddress_toNat, State.setV_getV, if_pos rfl, BitVec.toNat_ofNat]
    omega
  refine ⟨hi, ?_⟩
  simp only [State.setI_i, State.setI_byte, State.setV_byte, hi]
  exact State.construct_byte_of_lt p (by omega)

end Sys2Proof.Machine
end

section
/-! PROOFS. The encoding family (spec/30_encoding.md): decoding undoes encoding (R41, R42, R47), encoding undoes decoding
(R47), and the words that no pattern matches (R43 to R45). -/

namespace Sys2Proof

/-! ### The fields of a packed word, one by one -/

section
variable (op : BitVec 4) (x y : Reg) (n : BitVec 4) (kk : Byte) (nnn : BitVec 12)

@[simp] theorem fieldOp_packNnn : fieldOp (packNnn op nnn) = op := (fields_packNnn op nnn).1
@[simp] theorem fieldNnn_packNnn : fieldNnn (packNnn op nnn) = nnn := (fields_packNnn op nnn).2

@[simp] theorem fieldOp_packXkk : fieldOp (packXkk op x kk) = op := (fields_packXkk op x kk).1
@[simp] theorem fieldX_packXkk : fieldX (packXkk op x kk) = x := (fields_packXkk op x kk).2.1
@[simp] theorem fieldKk_packXkk : fieldKk (packXkk op x kk) = kk := (fields_packXkk op x kk).2.2

@[simp] theorem fieldOp_packXyn : fieldOp (packXyn op x y n) = op := (fields_packXyn op x y n).1
@[simp] theorem fieldX_packXyn : fieldX (packXyn op x y n) = x := (fields_packXyn op x y n).2.1
@[simp] theorem fieldY_packXyn : fieldY (packXyn op x y n) = y := (fields_packXyn op x y n).2.2.1
@[simp] theorem fieldN_packXyn : fieldN (packXyn op x y n) = n := (fields_packXyn op x y n).2.2.2

end

/-! ### A word is packed from its fields -/

section
variable {w : Word} {op : BitVec 4}

theorem packNnn_of_fields (hop : fieldOp w = op) : packNnn op (fieldNnn w) = w := by
  subst hop
  apply BitVec.eq_of_toNat_eq
  rw [packNnn_toNat, fieldOp_toNat, fieldNnn_toNat]
  omega

theorem packXkk_of_fields {kk : Byte} (hop : fieldOp w = op) (hkk : fieldKk w = kk) : packXkk op (fieldX w) kk = w := by
  subst hop hkk
  apply BitVec.eq_of_toNat_eq
  rw [packXkk_toNat, fieldOp_toNat, fieldX_val, fieldKk_toNat]
  omega

theorem packXyn_of_fields {n : BitVec 4} (hop : fieldOp w = op) (hn : fieldN w = n) :
    packXyn op (fieldX w) (fieldY w) n = w := by
  subst hop hn
  apply BitVec.eq_of_toNat_eq
  rw [packXyn_toNat, fieldOp_toNat, fieldX_val, fieldY_val, fieldN_toNat]
  omega

end

/-! ### Decoding an encoded instruction -/

/-- The one row whose words overlap others': `0nnn` is decoded after the whole words of CLS and RET (R42). -/
theorem decode_encode_sys {nnn : BitVec 12} (h : (Instr.sys nnn).wellFormed = true) :
    decode (encode (.sys nnn)) = .instr (.sys nnn) := by
  simp only [Instr.wellFormed, Bool.and_eq_true, bne_iff_ne] at h
  obtain ⟨hcls, hret⟩ := h
  have key {c : BitVec 12} (hc : nnn ≠ c) : packNnn 0x0#4 nnn ≠ packNnn 0x0#4 c := fun he =>
    hc (by simpa using congrArg fieldNnn he)
  have hcls : packNnn 0x0#4 nnn ≠ 0x00E0#16 := key hcls
  have hret : packNnn 0x0#4 nnn ≠ 0x00EE#16 := key hret
  simp [encode, decode, decode0, hcls, hret]

theorem decode_encode {i : Instr} (h : i.wellFormed = true) : decode (encode i) = .instr i := by
  cases i with
  | cls | ret => rfl
  | sys nnn => exact decode_encode_sys h
  | jp | call | ldI | jpV0 | seImm | sneImm | ldImm | addImm | rnd | seReg | sneReg | drw => simp [encode, decode]
  | ldReg | or | and | xor | addReg | sub | shr | subn | shl => simp [encode, decode, decode8]
  | skp | sknp => simp [encode, decode, decodeE]
  | ldVxDt | ldVxK | ldDtVx | ldStVx | addIVx | ldFVx | ldBVx | ldMemVx | ldVxMem => simp [encode, decode, decodeF]

/-- The two bytes of a word in memory order, whatever follows them, decode as the word (R30, R38). -/
theorem decodeBytes_bytes_of_word (w : Word) (rest : List Byte) :
    decodeBytes (highByte w :: lowByte w :: rest) = (decode w, rest) := by
  rw [decodeBytes, wordOfBytes_highByte_lowByte]

/-- Settles O1, constructor by constructor: the fields of a packed word are what was packed. -/
theorem decodeOfEncodeIsTheInstruction : Obligations.DecodeOfEncodeIsTheInstruction := by
  unfold Obligations.DecodeOfEncodeIsTheInstruction
  intro i hi
  have hd : decode (encode i) = .instr i := decode_encode hi
  exact ⟨hd, fun rest => by rw [decodeBytes_bytes_of_word, hd]⟩

/-! ### Encoding a decoded word, and the words that are rejected -/

/-- The five sets of words that no pattern matches, in the fields of R39 (R43 to R45). -/
def IllegalWord (w : Word) : Prop :=
  (fieldOp w = 0x5#4 ∧ fieldN w ≠ 0x0#4) ∨
  (fieldOp w = 0x8#4 ∧ fieldN w ∈ [0x8#4, 0x9#4, 0xA#4, 0xB#4, 0xC#4, 0xD#4, 0xF#4]) ∨
  (fieldOp w = 0x9#4 ∧ fieldN w ≠ 0x0#4) ∨
  (fieldOp w = 0xE#4 ∧ fieldKk w ∉ [0x9E#8, 0xA1#8]) ∨
  (fieldOp w = 0xF#4 ∧ fieldKk w ∉ [0x07#8, 0x0A#8, 0x15#8, 0x18#8, 0x1E#8, 0x29#8, 0x33#8, 0x55#8, 0x65#8])

/-- The five sets with the fields as numbers. -/
theorem illegalWord_iff (w : Word) : IllegalWord w ↔
    (w.toNat / 4096 = 5 ∧ w.toNat % 16 ≠ 0) ∨
    (w.toNat / 4096 = 8 ∧ w.toNat % 16 ∈ [0x8, 0x9, 0xA, 0xB, 0xC, 0xD, 0xF]) ∨
    (w.toNat / 4096 = 9 ∧ w.toNat % 16 ≠ 0) ∨
    (w.toNat / 4096 = 0xE ∧ w.toNat % 256 ∉ [0x9E, 0xA1]) ∨
    (w.toNat / 4096 = 0xF ∧ w.toNat % 256 ∉ [0x07, 0x0A, 0x15, 0x18, 0x1E, 0x29, 0x33, 0x55, 0x65]) := by
  simp [IllegalWord, ← BitVec.toNat_inj, fieldOp_toNat, fieldN_toNat, fieldKk_toNat]

/-- Packing puts the row's own `op`, and its `n` or `kk`, into the word, and these are in none of the five sets. -/
theorem not_illegalWord_encode (i : Instr) : ¬ IllegalWord (encode i) := by
  cases i with
  | cls | ret => unfold IllegalWord; decide
  | _ => simp [encode, IllegalWord]

/-- What is right to answer for the word `w`: a well-formed instruction with that word, or a rejection of an illegal one. -/
def Decoded.RightFor (w : Word) : Decoded → Prop
  | .instr i => i.wellFormed = true ∧ encode i = w
  | .reject _ => IllegalWord w

section
variable {w : Word}

theorem decode0_rightFor (hop : fieldOp w = 0x0#4) : (decode0 w).RightFor w := by
  have hw : packNnn 0x0#4 (fieldNnn w) = w := packNnn_of_fields hop
  unfold decode0
  split
  next hcls => exact ⟨rfl, hcls.symm⟩
  next hcls =>
    split
    next hret => exact ⟨rfl, hret.symm⟩
    next hret =>
      have hcls' : fieldNnn w ≠ 0x0E0#12 := fun he => hcls (by rw [← hw, he]; rfl)
      have hret' : fieldNnn w ≠ 0x0EE#12 := fun he => hret (by rw [← hw, he]; rfl)
      exact ⟨by simp [Instr.wellFormed, hcls', hret'], hw⟩

theorem decode8_rightFor (hop : fieldOp w = 0x8#4) : (decode8 w).RightFor w := by
  unfold decode8
  dsimp only
  split
  case h_10 =>
    have hn : fieldN w ∈ [0x8#4, 0x9#4, 0xA#4, 0xB#4, 0xC#4, 0xD#4, 0xF#4] := by
      generalize fieldN w = n at *
      revert n
      decide
    exact .inr (.inl ⟨hop, hn⟩)
  all_goals next hn => exact ⟨rfl, packXyn_of_fields hop hn⟩

theorem decodeE_rightFor (hop : fieldOp w = 0xE#4) : (decodeE w).RightFor w := by
  unfold decodeE
  split
  case h_3 =>
    have hkk : fieldKk w ∉ [0x9E#8, 0xA1#8] := by simp_all
    exact .inr (.inr (.inr (.inl ⟨hop, hkk⟩)))
  all_goals next hkk => exact ⟨rfl, packXkk_of_fields hop hkk⟩

theorem decodeF_rightFor (hop : fieldOp w = 0xF#4) : (decodeF w).RightFor w := by
  unfold decodeF
  dsimp only
  split
  case h_10 =>
    have hkk : fieldKk w ∉ [0x07#8, 0x0A#8, 0x15#8, 0x18#8, 0x1E#8, 0x29#8, 0x33#8, 0x55#8, 0x65#8] := by simp_all
    exact .inr (.inr (.inr (.inr ⟨hop, hkk⟩)))
  all_goals next hkk => exact ⟨rfl, packXkk_of_fields hop hkk⟩

end

/-- What the decoder can answer, family by family of the top nibble. -/
theorem decode_rightFor (w : Word) : (decode w).RightFor w := by
  unfold decode
  split
  case h_1 hop => exact decode0_rightFor hop
  case h_9 hop => exact decode8_rightFor hop
  case h_15 hop => exact decodeE_rightFor hop
  case h_16 =>
    have hop : fieldOp w = 0xF#4 := by
      generalize fieldOp w = op at *
      revert op
      decide
    exact decodeF_rightFor hop
  case h_6 hop =>
    split
    next hn => exact ⟨rfl, packXyn_of_fields hop hn⟩
    next hn => exact .inl ⟨hop, hn⟩
  case h_10 hop =>
    split
    next hn => exact ⟨rfl, packXyn_of_fields hop hn⟩
    next hn => exact .inr (.inr (.inl ⟨hop, hn⟩))
  case h_2 hop | h_3 hop | h_11 hop | h_12 hop => exact ⟨rfl, packNnn_of_fields hop⟩
  case h_4 hop | h_5 hop | h_7 hop | h_8 hop | h_13 hop => exact ⟨rfl, packXkk_of_fields hop rfl⟩
  case h_14 hop => exact ⟨rfl, packXyn_of_fields hop rfl⟩

/-- R47: an instruction that decoding answers is well formed and has the decoded word. -/
theorem encode_of_decode {w : Word} {i : Instr} (h : decode w = .instr i) : i.wellFormed = true ∧ encode i = w := by
  have hw : (decode w).RightFor w := decode_rightFor w
  rwa [h] at hw

theorem decode_reject_iff (w : Word) : (∃ why, decode w = .reject why) ↔ IllegalWord w := by
  constructor
  · rintro ⟨why, h⟩
    have hw : (decode w).RightFor w := decode_rightFor w
    rwa [h] at hw
  · intro hw
    cases h : decode w with
    | reject why => exact ⟨why, rfl⟩
    | instr i =>
      have hi : encode i = w := (encode_of_decode h).2
      exact absurd (hi ▸ hw) (not_illegalWord_encode i)

/-- Settles O2: a word is packed from the fields that its instruction keeps. -/
theorem encodeOfDecodeIsTheWord : Obligations.EncodeOfDecodeIsTheWord := by
  unfold Obligations.EncodeOfDecodeIsTheWord
  exact fun w i h => encode_of_decode h

/-- Settles O3: the decoder rejects illegal words only, and all of them, since no instruction has an illegal word. -/
theorem illegalWordsAreTheFiveSets : Obligations.IllegalWordsAreTheFiveSets := by
  unfold Obligations.IllegalWordsAreTheFiveSets
  exact fun w => (decode_reject_iff w).trans (illegalWord_iff w)

/-- Settles O4: decoding a word written out is a computation. -/
theorem sampleWordsDecode : Obligations.SampleWordsDecode := by
  unfold Obligations.SampleWordsDecode
  decide

end Sys2Proof
end

section
/-! PROOFS. The cycle family (spec/40_cycle.md): the fetch (R50), what a step runs (R49, R51, R52), the tick (R53), when a
cycle is defined (R54), and the runs in which only the timers change (R55). -/

namespace Sys2Proof.Machine

/-! ### A cycle runs the decoded instruction -/

theorem tickDown_eq_ofNat (t : Byte) : tickDown t = BitVec.ofNat 8 (t.toNat - 1) := by
  apply BitVec.eq_of_toNat_eq
  rw [tickDown_toNat, BitVec.toNat_ofNat]
  omega

/-- A step of a fetched instruction goes where the instruction goes, and ends the cycle there. -/
theorem exec_of_step {s t : State} {i : Instr} (hrun : s.status = .running) (hf : s.fetches i) (h : step s = .next t) :
    ∃ u, exec i s.advance = .next u ∧ t = u.endCycle :=
  (finishCycle_eq_next _ _).1 ((step_of_fetches s i hrun hf).symm.trans h)

/-- Settles O5: the end of the cycle is the tick of a state that is still running. -/
theorem stepRunsTheDecodedInstruction : Obligations.StepRunsTheDecodedInstruction := by
  unfold Obligations.StepRunsTheDecodedInstruction
  intro s i hrun hf
  rw [step_of_fetches s i hrun hf, State.advance, State.setPc]
  cases exec i { s with pc := s.pc + 2#16 } with
  | next t =>
    dsimp only [finishCycle]
    cases ht : t.status with
    | running => rw [t.endCycle_of_running ht, State.tick, tickDown_eq_ofNat, tickDown_eq_ofNat, ht]
    | halted f => rw [t.endCycle_of_halted ht]
  | fault r | refused r => rfl

/-! ### The fetch -/

theorem State.wordAtPc_toNat (s : State) :
    s.wordAtPc.toNat = (s.byte s.pc.toNat).toNat * 256 + (s.byte (s.pc.toNat + 1)).toNat :=
  toNat_append_eq _ _

/-- A fetch past the end of memory halts the block and changes nothing else (R50, R94). -/
theorem step_of_pc_gt {s : State} (hrun : s.status = .running) (h : 4094 < s.pc.toNat) :
    step s = .next { s with status := .halted (s.fetchFault (max s.pc.toNat 4096)) } :=
  step_of_fetch_error s _ hrun ((s.fetchInstr_eq_error _).2 (.inl ⟨h, rfl⟩))

/-- Settles O6: of an address above 4094, the first byte above 4095 is its own or the one at 4096. -/
theorem fetchReadsTheWordOrFaults : Obligations.FetchReadsTheWordOrFaults := by
  unfold Obligations.FetchReadsTheWordOrFaults
  intro s
  refine ⟨fun h => ⟨_, s.fetchWord_of_le h, s.wordAtPc_toNat⟩, fun hrun h => ⟨_, step_of_pc_gt hrun h, rfl, rfl, rfl, ?_⟩⟩
  have hfirst : max s.pc.toNat 4096 = if 4095 < s.pc.toNat then s.pc.toNat else 4096 := by split <;> omega
  exact congrArg some hfirst

/-! ### When a cycle is defined -/

/-- A running block goes to a next state, whether the cycle faults or not. -/
theorem exists_step_of_running {s : State} (hrun : s.status = .running) : ∃ t, step s = .next t := by
  cases hf : s.fetchInstr with
  | error f => exact ⟨_, step_of_fetch_error s f hrun hf⟩
  | ok i =>
    obtain ⟨u, hu, -⟩ := exec_writesWithin i s.advance
    exact ⟨u.endCycle, by rw [step_of_fetches s i hrun ((s.fetchInstr_eq_ok i).1 hf), hu, finishCycle]⟩

/-- Settles O8: no instruction answers anything but a next state, and a halted block answers its record. -/
theorem cycleIsDefinedExactlyWhenRunning : Obligations.CycleIsDefinedExactlyWhenRunning := by
  unfold Obligations.CycleIsDefinedExactlyWhenRunning
  exact fun s => ⟨exists_step_of_running, fun f h => ⟨step_of_halted s h, hostCycle_of_halted s h⟩⟩

/-! ### The tick -/

/-- Settles O11: `Fx15` and `Fx18` complete and write their timer; of the others, by R21, no outcome writes a timer. -/
theorem timersTickOncePerCompletedCycle : Obligations.TimersTickOncePerCompletedCycle := by
  unfold Obligations.TimersTickOncePerCompletedCycle
  intro s t i hrun hf hstep
  obtain ⟨u, hu, rfl⟩ := exec_of_step hrun hf hstep
  have hdt : i.writesElement .dt = false → u.dt = s.dt := (writesWithin_of_exec hu).columns .dt
  have hst : i.writesElement .st = false → u.st = s.st := (writesWithin_of_exec hu).columns .st
  rw [State.endCycle_status]
  constructor
  · intro hu_run
    rw [u.endCycle_of_running hu_run, State.tick_dt, State.tick_st, tickDown_toNat, tickDown_toNat]
    cases i with
    | ldDtVx x | ldStVx x => cases hu; exact ⟨rfl, rfl, nofun⟩
    | ldVxDt x =>
      cases hu
      refine ⟨rfl, rfl, fun y hy => ?_⟩
      cases hy
      simp
    | _ => exact ⟨by rw [hdt rfl], by rw [hst rfl], nofun⟩
  · intro f hu_halted
    rw [u.endCycle_of_halted hu_halted]
    cases i with
    | ldDtVx x | ldStVx x =>
      cases hu
      cases hrun.symm.trans hu_halted
    | _ => exact ⟨hdt rfl, hst rfl⟩

/-! ### Runs in which only the timers change -/

/-- A cycle whose instruction completes is the instruction and the tick. -/
theorem step_of_exec {s u : State} {i : Instr} (hrun : s.status = .running) (hf : s.fetches i)
    (hu : exec i s.advance = .next u) (hu_run : u.status = .running) : step s = .next u.tick := by
  rw [step_of_fetches s i hrun hf, hu, finishCycle, u.endCycle_of_running hu_run]

/-- A run begins with a step. -/
theorem core_run_succ {s u : State} (h : step s = .next u) (k : Nat) :
    Host.Core.run Sys2Proof.core (k + 1) s = Host.Core.run Sys2Proof.core k u := by
  have hcore : Sys2Proof.core.step s = .next u := h
  simp only [Host.Core.run, hcore]

/-- In a state of `P` a cycle is the tick alone, and the tick keeps `P`. -/
def TicksOnly (P : State → Prop) : Prop := ∀ s, P s → step s = .next s.tick ∧ P s.tick

/-- Any number of cycles from a state of such a `P`, by induction: one floored decrement of each timer a cycle. -/
theorem TicksOnly.run {P : State → Prop} (hP : TicksOnly P) (k : Nat) (s : State) (hs : P s) :
    ∃ t : State, Host.Core.run Sys2Proof.core k s = .next t ∧ t = { s with dt := t.dt, st := t.st } ∧ P t ∧
      t.dt.toNat = s.dt.toNat - k ∧ t.st.toNat = s.st.toNat - k := by
  induction k generalizing s with
  | zero => exact ⟨s, rfl, rfl, hs, rfl, rfl⟩
  | succ k ih =>
    obtain ⟨hstep, htick⟩ := hP s hs
    obtain ⟨t, hrun, heq, ht, hdt, hst⟩ := ih s.tick htick
    rw [State.tick_dt, tickDown_toNat] at hdt
    rw [State.tick_st, tickDown_toNat] at hst
    exact ⟨t, (core_run_succ hstep k).trans hrun, heq, ht, by omega, by omega⟩

/-- The jump of a parked block goes back to the `PC` it was fetched from (R59). -/
theorem parked_ticksOnly : TicksOnly State.parked := by
  rintro s ⟨hrun, nnn, hf, hnnn⟩
  refine ⟨?_, hrun, nnn, hf, hnnn⟩
  have hpc : zextNnn nnn = s.pc := BitVec.eq_of_toNat_eq ((zextNnn_toNat nnn).trans hnnn)
  have hjp : exec (.jp nnn) s.advance = .next s := congrArg (fun a => Host.Outcome.next (s.setPc a)) hpc
  exact step_of_exec hrun hf hjp hrun

/-- Settles O20: a parked block only ticks, and a tick leaves it parked. -/
theorem parkedChangesOnlyTheTimers : Obligations.ParkedChangesOnlyTheTimers := by
  unfold Obligations.ParkedChangesOnlyTheTimers
  exact parked_ticksOnly.run

theorem exec_ldVxK_of_none {s : State} (h : s.firstPressed = none) (x : Reg) :
    exec (.ldVxK x) s = .next s.rewind := by
  simp only [exec, execLdVxK, h]

theorem exec_ldVxK_of_some {s : State} {k : Fin 16} (h : s.firstPressed = some k) (x : Reg) :
    exec (.ldVxK x) s = .next ((s.setV x (BitVec.ofNat 8 k.val)).clearKeys) := by
  simp only [exec, execLdVxK, h]

/-- The rewind undoes the advance. -/
theorem State.rewind_advance (s : State) : s.advance.rewind = s := by
  have hpc : s.pc + 2#16 - 2#16 = s.pc := BitVec.add_sub_cancel ..
  exact congrArg s.setPc hpc

/-- With no key pressed, `Fx0A` is fetched again (R91). -/
theorem waiting_ticksOnly : TicksOnly State.waiting := by
  rintro s ⟨hrun, ⟨x, hf⟩, hkeys⟩
  refine ⟨?_, hrun, ⟨x, hf⟩, hkeys⟩
  have hnone : s.advance.firstPressed = none := (State.firstPressed_eq_none _).2 hkeys
  have hwait : exec (.ldVxK x) s.advance = .next s := by rw [exec_ldVxK_of_none hnone, s.rewind_advance]
  exact step_of_exec hrun hf hwait hrun

/-- A key set in an empty latch is the first one pressed. -/
theorem State.firstPressed_pressKey {s : State} (h : ∀ k, s.pressed k = false) (q : Fin 16) :
    (s.pressKey q).firstPressed = some q := by
  refine (State.firstPressed_eq_some _ q).2 ⟨by simp, fun j hj => ?_⟩
  simp [h j, ne_of_lt hj]

theorem hostCycle_of_next_running {s t : State} (h : step s = .next t) (ht : t.status = .running) :
    hostCycle s = (t, .ok) := by
  simp only [hostCycle, h, ht]

/-- A key set in a waiting block is what the next cycle's `Fx0A` takes, clearing the latch (R91, R116). -/
theorem runCommands_setKey_cycle_of_waiting {s : State} {x : Reg} (hrun : s.status = .running)
    (hf : s.fetches (.ldVxK x)) (hkeys : ∀ k, s.pressed k = false) (q : Fin 16) :
    runCommands [.setKey q.val, .cycle] s =
      (((s.pressKey q).advance.setV x (BitVec.ofNat 8 q.val)).clearKeys.tick, [.ok, .ok]) := by
  have hset : command (.setKey q.val) s = (s.pressKey q, .ok) := dif_pos q.isLt
  have hfirst : (s.pressKey q).advance.firstPressed = some q := State.firstPressed_pressKey hkeys q
  have hstep := step_of_exec (s := s.pressKey q) hrun hf (exec_ldVxK_of_some hfirst x) hrun
  have hcycle := hostCycle_of_next_running hstep hrun
  simp only [runCommands, hset]
  simp only [command, hcycle]

/-- Settles O21: a waiting block only ticks, and a tick leaves it waiting, until a key is set. -/
theorem waitingChangesOnlyTheTimers : Obligations.WaitingChangesOnlyTheTimers := by
  unfold Obligations.WaitingChangesOnlyTheTimers
  intro k s hs
  refine ⟨waiting_ticksOnly.run k s hs, fun q hq => ?_⟩
  obtain ⟨hrun, ⟨x, hf⟩, hkeys⟩ := hs
  refine ⟨_, x, hf, runCommands_setKey_cycle_of_waiting hrun hf hkeys ⟨q, hq⟩, rfl, ?_, fun j => by simp⟩
  have hbyte : (BitVec.ofNat 8 q).toNat = q := by rw [BitVec.toNat_ofNat]; omega
  simpa using hbyte

end Sys2Proof.Machine
end

section
/-! PROOFS. The control-flow family (spec/41_control_flow.md): the jumps (R58, R59, R65), call and return with the stack's two
faults (R57, R60), and the skips on an immediate and on a register (R56, R61 to R64). -/

namespace Sys2Proof.Machine

/-! ### Jumps -/

/-- Settles O23: both are the one jump, whose target is never above 12 bits. -/
theorem jumpsSetThePc : Obligations.JumpsSetThePc := by
  unfold Obligations.JumpsSetThePc
  exact fun s nnn => ⟨s.setPc (zextNnn nnn), rfl, rfl, zextNnn_toNat nnn, rfl⟩

/-- A 12-bit address and a byte add up to less than 2^16, so the addition of words is exact. -/
theorem zextNnn_add_zextByte_toNat (nnn : BitVec 12) (b : Byte) :
    (zextNnn nnn + zextByte b).toNat = nnn.toNat + b.toNat := by
  have := nnn.isLt
  have := b.isLt
  rw [BitVec.toNat_add, zextNnn_toNat, zextByte_toNat]
  omega

/-- Settles O24: the sum of words is the exact sum. -/
theorem indexedJumpAddsVZero : Obligations.IndexedJumpAddsVZero := by
  unfold Obligations.IndexedJumpAddsVZero
  exact fun s nnn => ⟨_, rfl, zextNnn_add_zextByte_toNat nnn (s.getV 0), rfl⟩

/-! ### Call and return -/

/-- With a free slot a call stores the advanced `PC` there (R60). -/
theorem exec_call_of_lt {s : State} (h : s.sp.val < 16) (nnn : BitVec 12) :
    exec (.call nnn) s = .next
      { s with stack := s.stack.set s.sp.val s.pc, sp := ⟨s.sp.val + 1, by omega⟩, pc := zextNnn nnn } := by
  simp only [exec, execCall, State.push_of_lt s s.pc h, State.setPc]

theorem exec_call_of_full {s : State} (h : s.sp.val = 16) (nnn : BitVec 12) :
    exec (.call nnn) s = .next (s.haltedWith .stackOverflow none (encode (.call nnn))) := by
  simp only [exec, execCall, (State.push_eq_none s s.pc).2 h, raise_eq]

/-- With an entry held a return jumps to the top one, in the slot below `SP` (R57). -/
theorem exec_ret_of_pos {s : State} (h : 0 < s.sp.val) :
    exec .ret s = .next { s with sp := ⟨s.sp.val - 1, by omega⟩, pc := s.stack[s.sp.val - 1]'(by omega) } := by
  simp only [exec, execRet, State.pop_of_pos s h, State.setPc]

theorem exec_ret_of_empty {s : State} (h : s.sp.val = 0) :
    exec .ret s = .next (s.haltedWith .stackUnderflow none (encode .ret)) := by
  simp only [exec, execRet, (State.pop_eq_none s).2 h, raise_eq]

/-- Settles O25: the slot at `SP` is the only one the push writes. -/
theorem callPushesOrOverflows : Obligations.CallPushesOrOverflows := by
  unfold Obligations.CallPushesOrOverflows
  refine fun s nnn => ⟨fun h => ?_, fun h => exec_call_of_full h nnn⟩
  exact ⟨_, exec_call_of_lt h nnn, Vector.getElem_set_self h, fun j hj => Vector.getElem_set_ne h j.isLt hj.symm, rfl,
    zextNnn_toNat nnn, rfl⟩

/-- Settles O26: the pop writes no slot. -/
theorem returnPopsOrUnderflows : Obligations.ReturnPopsOrUnderflows := by
  unfold Obligations.ReturnPopsOrUnderflows
  exact fun s => ⟨fun h => ⟨_, exec_ret_of_pos h, rfl, rfl, rfl⟩, exec_ret_of_empty⟩

/-- Settles O27: the return reads the slot that the call wrote, and the call wrote no slot below it. -/
theorem returnComesBackFromCall : Obligations.ReturnComesBackFromCall := by
  unfold Obligations.ReturnComesBackFromCall
  intro s nnn h
  refine ⟨_, _, exec_call_of_lt h nnn, exec_ret_of_pos (Nat.succ_pos _), ?_, rfl, fun j hj => ?_⟩
  · exact Vector.getElem_set_self h
  · exact Vector.getElem_set_ne h j.isLt hj.ne'

/-! ### Skips -/

/-- A skip on equal bytes (R56). -/
theorem State.skipIf_beq (s : State) (a b : Byte) :
    s.skipIf (a == b) = { s with pc := if a.toNat = b.toNat then s.pc + 2#16 else s.pc } := by
  by_cases h : a = b
  · simp [State.skipIf, State.setPc, h]
  · simp [State.skipIf, h, BitVec.toNat_inj]

/-- A skip on unequal bytes (R56). -/
theorem State.skipIf_bne (s : State) (a b : Byte) :
    s.skipIf (a != b) = { s with pc := if a.toNat = b.toNat then s.pc else s.pc + 2#16 } := by
  by_cases h : a = b
  · simp [State.skipIf, h]
  · simp [State.skipIf, State.setPc, h, BitVec.toNat_inj]

/-- Settles O28: bytes are equal exactly when they are equal as numbers. -/
theorem immediateSkips : Obligations.ImmediateSkips := by
  unfold Obligations.ImmediateSkips
  intro s x kk
  rw [← s.skipIf_beq, ← s.skipIf_bne]
  exact ⟨rfl, rfl⟩

/-- Settles O29: as the immediate skips, with `V[y]` for `kk`. -/
theorem registerSkips : Obligations.RegisterSkips := by
  unfold Obligations.RegisterSkips
  intro s x y
  rw [← s.skipIf_beq, ← s.skipIf_bne]
  exact ⟨rfl, rfl⟩

end Sys2Proof.Machine
end

section
/-! PROOFS. The family of loads, arithmetic, logic, shifts and the random byte (spec/42_alu.md): the instructions that write
one register (R67 to R72), the sum with its carry written last (R73), the four that write the flag first and then read the
registers as that write left them (R74 to R77), and the masked draw (R78). -/

namespace Sys2Proof.Machine

/-! ### What a register write leaves, by number and by bit -/

theorem State.setV_getV_toNat (s : State) (x : Reg) (b : Byte) (r : Reg) :
    ((s.setV x b).getV r).toNat = if r = x then b.toNat else (s.getV r).toNat := by
  rw [State.setV_getV, apply_ite BitVec.toNat]

theorem State.setV_getV_getLsbD (s : State) (x : Reg) (b : Byte) (r : Reg) (k : Nat) :
    ((s.setV x b).getV r).getLsbD k = if r = x then b.getLsbD k else (s.getV r).getLsbD k := by
  rw [State.setV_getV, apply_ite (BitVec.getLsbD · k)]

/-! ### Loads, immediate addition, logic: one register is written -/

/-- Settles O30: a register write is read back in its own register alone. -/
theorem loadsWriteTheirRegister : Obligations.LoadsWriteTheirRegister := by
  unfold Obligations.LoadsWriteTheirRegister
  exact fun s x y kk => ⟨⟨_, rfl, s.setV_getV x kk, rfl⟩, ⟨_, rfl, s.setV_getV x (s.getV y), rfl⟩⟩

/-- Settles O31: the sum of bytes is the sum of numbers modulo 256. -/
theorem addImmediateWraps : Obligations.AddImmediateWraps := by
  unfold Obligations.AddImmediateWraps
  refine fun s x kk => ⟨_, rfl, fun r => ?_, rfl⟩
  rw [State.setV_getV_toNat, BitVec.toNat_add]

/-- Settles O32: each operation on bytes is the Boolean one on every bit. -/
theorem logicIsBitwise : Obligations.LogicIsBitwise := by
  unfold Obligations.LogicIsBitwise
  refine fun s x y => ⟨⟨_, rfl, fun r k => ?_, rfl⟩, ⟨_, rfl, fun r k => ?_, rfl⟩, ⟨_, rfl, fun r k => ?_, rfl⟩⟩
  · rw [State.setV_getV_getLsbD, BitVec.getLsbD_or]
  · rw [State.setV_getV_getLsbD, BitVec.getLsbD_and]
  · rw [State.setV_getV_getLsbD, BitVec.getLsbD_xor]

/-! ### The flags as numbers -/

theorem carryFlag_toNat (a b : Byte) : (carryFlag a b).toNat = if 255 < a.toNat + b.toNat then 1 else 0 := by
  simp [carryFlag]

theorem noBorrowFlag_toNat (a b : Byte) : (noBorrowFlag a b).toNat = if b.toNat < a.toNat then 1 else 0 := by
  simp [noBorrowFlag]

theorem lowBitFlag_toNat (a : Byte) : (lowBitFlag a).toNat = a.toNat % 2 := by
  rw [lowBitFlag, BitVec.toNat_and]
  exact Nat.and_one_is_mod _

theorem highBitFlag_toNat (a : Byte) : (highBitFlag a).toNat = a.toNat / 128 := by
  rw [highBitFlag, BitVec.toNat_ushiftRight, Nat.shiftRight_eq_div_pow]

/-! ### The sum: the flag write comes last -/

/-- Settles O33: the carry, written last, is what VF ends as; both values are of the operands. -/
theorem addRegistersSetsCarry : Obligations.AddRegistersSetsCarry := by
  unfold Obligations.AddRegistersSetsCarry
  refine fun s x y => ⟨_, rfl, fun r => ?_, rfl⟩
  rw [State.setVF_eq, State.setV_getV_toNat, State.setV_getV_toNat, carryFlag_toNat, BitVec.toNat_add]

/-! ### `VF_ALIAS` on the operands -/

theorem State.refusesVf_of_mem {s : State} {xs : List Reg} (h : s.params.vfAlias = .refuse) (hx : Reg.vf ∈ xs) :
    s.refusesVf xs = true := by
  simp [State.refusesVf, h, hx]

theorem State.not_refusesVf {s : State} {xs : List Reg} (h : s.params.vfAlias = .sequential ∨ Reg.vf ∉ xs) :
    ¬ s.refusesVf xs = true := by
  rcases h with h | h
  · simp [State.refusesVf, h]
  · simp [State.refusesVf, h]

theorem Reg.vf_mem_pair {x y : Reg} : Reg.vf ∈ [x, y] ↔ x = 15 ∨ y = 15 := by
  simp [eq_comm]

theorem Reg.vf_mem_singleton {x : Reg} : Reg.vf ∈ [x] ↔ x = 15 :=
  List.mem_singleton.trans eq_comm

/-! ### The flag first, then a result into `V[x]` -/

theorem State.setVF_getV_toNat (s : State) (f : Byte) (r : Reg) :
    ((s.setVF f).getV r).toNat = if r = 15 then f.toNat else (s.getV r).toNat :=
  s.setV_getV_toNat 15 f r

/-- The result goes to another register, so VF ends as the flag. -/
theorem State.setVF_setV_getV_vf (s : State) (f b : Byte) {x : Reg} (hx : x ≠ 15) :
    ((s.setVF f).setV x b).getV 15 = f := by
  rw [State.setV_getV, if_neg hx.symm, State.setVF_eq, State.setV_getV, if_pos rfl]

theorem State.setVF_setV_getV_of_ne (s : State) (f b : Byte) {x r : Reg} (hx : r ≠ x) (hvf : r ≠ 15) :
    ((s.setVF f).setV x b).getV r = s.getV r := by
  rw [State.setV_getV, if_neg hx, State.setVF_eq, State.setV_getV, if_neg hvf]

/-! ### Differences -/

/-- The difference of bytes as numbers: it wraps modulo 256. -/
theorem byte_sub_toNat (a b : Byte) : (a - b).toNat = (a.toNat + 256 - b.toNat) % 256 := by
  have := b.isLt
  rw [BitVec.toNat_sub]
  omega

/-- What `8xy5` and `8xy7` share (R74, R76): VF becomes the no-borrow flag of `V[a]` and `V[b]`, then `V[x]` their difference
as they are then. -/
def State.flagThenDifference (s : State) (x a b : Reg) : State :=
  let t := s.setVF (noBorrowFlag (s.getV a) (s.getV b))
  t.setV x (t.getV a - t.getV b)

theorem exec_sub_of_refuses {s : State} {x y : Reg} (h : s.refusesVf [x, y] = true) :
    exec (.sub x y) s = .next (s.haltedWith .unmodelled none (encode (.sub x y))) := by
  simp only [exec, execSub, if_pos h, raise_eq]

theorem exec_sub_of_not_refuses {s : State} {x y : Reg} (h : ¬ s.refusesVf [x, y] = true) :
    exec (.sub x y) s = .next (s.flagThenDifference x x y) := by
  simp only [exec, execSub, if_neg h, State.flagThenDifference]

theorem exec_subn_of_refuses {s : State} {x y : Reg} (h : s.refusesVf [x, y] = true) :
    exec (.subn x y) s = .next (s.haltedWith .unmodelled none (encode (.subn x y))) := by
  simp only [exec, execSubn, if_pos h, raise_eq]

theorem exec_subn_of_not_refuses {s : State} {x y : Reg} (h : ¬ s.refusesVf [x, y] = true) :
    exec (.subn x y) s = .next (s.flagThenDifference x y x) := by
  simp only [exec, execSubn, if_neg h, State.flagThenDifference]

section
variable (s : State) (x a b : Reg)

/-- Either operand that is VF reads the flag. -/
theorem State.flagThenDifference_getV_self :
    ((s.flagThenDifference x a b).getV x).toNat =
      ((if a = 15 then (if (s.getV b).toNat < (s.getV a).toNat then 1 else 0) else (s.getV a).toNat) + 256 -
        (if b = 15 then (if (s.getV b).toNat < (s.getV a).toNat then 1 else 0) else (s.getV b).toNat)) % 256 := by
  rw [State.flagThenDifference, State.setV_getV_toNat, if_pos rfl, byte_sub_toNat, State.setVF_getV_toNat,
    State.setVF_getV_toNat, noBorrowFlag_toNat]

theorem State.flagThenDifference_getV_vf (hx : x ≠ 15) :
    ((s.flagThenDifference x a b).getV 15).toNat = if (s.getV b).toNat < (s.getV a).toNat then 1 else 0 := by
  rw [State.flagThenDifference, State.setVF_setV_getV_vf s _ _ hx, noBorrowFlag_toNat]

theorem State.flagThenDifference_getV_of_ne (r : Reg) (hx : r ≠ x) (hvf : r ≠ 15) :
    (s.flagThenDifference x a b).getV r = s.getV r :=
  s.setVF_setV_getV_of_ne _ _ hx hvf

end

/-- Settles O34: the clauses are the four ways for VF to be an operand of the difference. -/
theorem subtractSetsNoBorrow : Obligations.SubtractSetsNoBorrow := by
  unfold Obligations.SubtractSetsNoBorrow
  intro s x y
  refine ⟨fun hp hv => exec_sub_of_refuses (State.refusesVf_of_mem hp (Reg.vf_mem_pair.2 hv)), fun hp => ?_⟩
  have hok : ¬ s.refusesVf [x, y] = true := State.not_refusesVf (by rwa [Reg.vf_mem_pair, not_or])
  have hself := s.flagThenDifference_getV_self x x y
  refine ⟨_, _, exec_sub_of_not_refuses hok, rfl, s.flagThenDifference_getV_vf x x y, fun hx hy => ?_, fun hx hy => ?_,
    fun hx hy => ?_, fun hx hy => ?_, s.flagThenDifference_getV_of_ne x x y, rfl⟩
  · rwa [if_neg hx, if_neg hy] at hself
  · rwa [if_neg hx, if_pos hy] at hself
  · subst hx
    rwa [if_pos rfl, if_neg hy] at hself
  · subst hx hy
    rwa [if_pos rfl, Nat.add_sub_cancel_left] at hself

/-- Settles O35: as O34, with `V[y]` the minuend. -/
theorem reverseSubtractSetsNoBorrow : Obligations.ReverseSubtractSetsNoBorrow := by
  unfold Obligations.ReverseSubtractSetsNoBorrow
  intro s x y
  refine ⟨fun hp hv => exec_subn_of_refuses (State.refusesVf_of_mem hp (Reg.vf_mem_pair.2 hv)), fun hp => ?_⟩
  have hok : ¬ s.refusesVf [x, y] = true := State.not_refusesVf (by rwa [Reg.vf_mem_pair, not_or])
  have hself := s.flagThenDifference_getV_self x y x
  refine ⟨_, _, exec_subn_of_not_refuses hok, rfl, s.flagThenDifference_getV_vf x y x, fun hx hy => ?_, fun hx hy => ?_,
    fun hx hy => ?_, fun hx hy => ?_, s.flagThenDifference_getV_of_ne x y x, rfl⟩
  · rwa [if_neg hx, if_neg hy] at hself
  · rwa [if_neg hx, if_pos hy] at hself
  · subst hx
    rwa [if_pos rfl, if_neg hy] at hself
  · subst hx hy
    rwa [if_pos rfl, Nat.add_sub_cancel_left] at hself

/-! ### Shifts -/

theorem byte_shiftRight_one_toNat (a : Byte) : (a >>> 1).toNat = a.toNat / 2 := by
  rw [BitVec.toNat_ushiftRight, Nat.shiftRight_eq_div_pow, pow_one]

theorem byte_shiftLeft_one_toNat (a : Byte) : (a <<< 1).toNat = a.toNat * 2 % 256 := by
  rw [BitVec.toNat_shiftLeft, Nat.shiftLeft_eq, pow_one]

theorem exec_shr_of_refuses {s : State} {x : Reg} (h : s.refusesVf [x] = true) (y : Reg) :
    exec (.shr x y) s = .next (s.haltedWith .unmodelled none (encode (.shr x y))) := by
  simp only [exec, execShr, if_pos h, raise_eq]

/-- The next state does not name `y` (R75). -/
theorem exec_shr_of_not_refuses {s : State} {x : Reg} (h : ¬ s.refusesVf [x] = true) (y : Reg) :
    exec (.shr x y) s = .next ((s.setVF (lowBitFlag (s.getV x))).setV x ((s.setVF (lowBitFlag (s.getV x))).getV x >>> 1)) := by
  simp only [exec, execShr, if_neg h]

theorem exec_shl_of_refuses {s : State} {x : Reg} (h : s.refusesVf [x] = true) (y : Reg) :
    exec (.shl x y) s = .next (s.haltedWith .unmodelled none (encode (.shl x y))) := by
  simp only [exec, execShl, if_pos h, raise_eq]

/-- The next state does not name `y` (R77). -/
theorem exec_shl_of_not_refuses {s : State} {x : Reg} (h : ¬ s.refusesVf [x] = true) (y : Reg) :
    exec (.shl x y) s = .next ((s.setVF (highBitFlag (s.getV x))).setV x ((s.setVF (highBitFlag (s.getV x))).getV x <<< 1)) := by
  simp only [exec, execShl, if_neg h]

/-- Settles O36: for `x = 0xF` it is the flag, 0 or 1, that is halved. -/
theorem shiftRightShiftsOutTheLowBit : Obligations.ShiftRightShiftsOutTheLowBit := by
  unfold Obligations.ShiftRightShiftsOutTheLowBit
  intro s x y
  refine ⟨fun hp hx => exec_shr_of_refuses (State.refusesVf_of_mem hp (Reg.vf_mem_singleton.2 hx)) y, fun hp => ?_⟩
  have hok : ¬ s.refusesVf [x] = true := State.not_refusesVf (by rwa [Reg.vf_mem_singleton])
  refine ⟨_, exec_shr_of_not_refuses hok, fun hx => ⟨?_, ?_⟩, fun hx => ?_, fun r => s.setVF_setV_getV_of_ne _ _, rfl⟩
  · rw [s.setVF_setV_getV_vf _ _ hx, lowBitFlag_toNat]
  · rw [State.setV_getV_toNat, if_pos rfl, byte_shiftRight_one_toNat, State.setVF_getV_toNat, if_neg hx]
  · subst hx
    rw [State.setV_getV_toNat, if_pos rfl, byte_shiftRight_one_toNat, State.setVF_getV_toNat, if_pos rfl, lowBitFlag_toNat]
    omega

/-- Settles O37: for `x = 0xF` it is the flag, 0 or 1, that is doubled. -/
theorem shiftLeftShiftsOutTheHighBit : Obligations.ShiftLeftShiftsOutTheHighBit := by
  unfold Obligations.ShiftLeftShiftsOutTheHighBit
  intro s x y
  refine ⟨fun hp hx => exec_shl_of_refuses (State.refusesVf_of_mem hp (Reg.vf_mem_singleton.2 hx)) y, fun hp => ?_⟩
  have hok : ¬ s.refusesVf [x] = true := State.not_refusesVf (by rwa [Reg.vf_mem_singleton])
  refine ⟨_, exec_shl_of_not_refuses hok, fun hx => ⟨?_, ?_⟩, fun hx => ?_, fun r => s.setVF_setV_getV_of_ne _ _, rfl⟩
  · rw [s.setVF_setV_getV_vf _ _ hx, highBitFlag_toNat]
  · rw [State.setV_getV_toNat, if_pos rfl, byte_shiftLeft_one_toNat, State.setVF_getV_toNat, if_neg hx]
  · subst hx
    have := (s.getV 15).isLt
    rw [State.setV_getV_toNat, if_pos rfl, byte_shiftLeft_one_toNat, State.setVF_getV_toNat, if_pos rfl, highBitFlag_toNat]
    omega

/-! ### The random byte -/

/-- Settles O38: the register written holds the masked draw, and counting the draw writes no register. -/
theorem randomByteIsMasked : Obligations.RandomByteIsMasked := by
  unfold Obligations.RandomByteIsMasked
  intro s x kk
  have hx : (s.countDraw.setV x (s.draw &&& kk)).getV x = Config.rand s.draws &&& kk :=
    (State.setV_getV ..).trans (if_pos rfl)
  refine ⟨_, rfl, fun k => ?_, fun hkk => ?_, fun hkk => ?_, fun r hr => (State.setV_getV ..).trans (if_neg hr), rfl⟩
  · rw [hx, BitVec.getLsbD_and]
  · rw [hx, hkk, BitVec.and_zero]
  · rw [hx, hkk]
    exact BitVec.and_allOnes

end Sys2Proof.Machine
end

section
/-! PROOFS. The index-and-memory family (spec/43_index_memory.md): the loads of `I` (R79, R81) and the addition to it (R80), the
decimal digits (R82), the register transfers to memory and back (R83, R84), and their faults (R27, R99). -/

namespace Sys2Proof.Machine

/-! ### The index register -/

/-- Settles O39: both are one write of `I`, and neither value is reduced. -/
theorem indexLoads : Obligations.IndexLoads := by
  unfold Obligations.IndexLoads
  exact fun s nnn x => ⟨⟨_, rfl, zextNnn_toNat nnn, rfl⟩, ⟨_, rfl, fontAddress_toNat (s.getV x), rfl⟩⟩

theorem exec_addIVx_of_le_or_wrap {s : State} {x : Reg}
    (h : s.i.toNat + (s.getV x).toNat ≤ 0xFFFF ∨ s.params.iAddOverflow = .wrap) :
    exec (.addIVx x) s = .next (s.setI (BitVec.ofNat 16 (s.i.toNat + (s.getV x).toNat))) := by
  refine if_neg ?_
  rintro ⟨hgt, hfault⟩
  rcases h with hle | hwrap
  · omega
  · cases hfault.symm.trans hwrap

theorem exec_addIVx_of_gt {s : State} {x : Reg} (h : 0xFFFF < s.i.toNat + (s.getV x).toNat)
    (hp : s.params.iAddOverflow = .fault) :
    exec (.addIVx x) s = .next (s.haltedWith .indexOverflow none (encode (.addIVx x))) :=
  if_pos ⟨h, hp⟩

/-- Settles O40: a word made of the exact sum is the sum modulo 2^16. -/
theorem indexAddWrapsOrFaults : Obligations.IndexAddWrapsOrFaults := by
  unfold Obligations.IndexAddWrapsOrFaults
  exact fun s x => ⟨fun h => ⟨_, exec_addIVx_of_le_or_wrap h, BitVec.toNat_ofNat .., rfl⟩, exec_addIVx_of_gt⟩

/-! ### The range check of the transfers (R27) -/

/-- The check passes when the last of `k + 1` bytes from `I` up is memory. -/
theorem State.rangeFault_succ_of_le {s : State} {k : Nat} (h : s.i.toNat + k ≤ 4095) : s.rangeFault (k + 1) = none :=
  (s.rangeFault_eq_none _).2 (.inr (Nat.succ_le_succ h))

theorem State.rangeFault_succ_of_gt {s : State} {k : Nat} (h : 4095 < s.i.toNat + k) :
    s.rangeFault (k + 1) = some (max s.i.toNat 4096) :=
  (s.rangeFault_eq_some _ _).2 ⟨k.succ_pos, Nat.succ_lt_succ h, rfl⟩

/-! ### What a run of written bytes leaves at an address -/

section
variable {s : State} {a : Nat} {bs : List Byte}

theorem State.writeBytes_byte_of_lt (hm : Memory.wf s.params.font s.mem) (ha : a + bs.length ≤ memSize) {j : Nat}
    (hj : j < bs.length) : (s.writeBytes a bs).byte (a + j) = bs[j] := by
  rw [State.writeBytes_byte s a bs ha hm, dif_pos ⟨by omega, by omega⟩]
  simp

theorem State.writeBytes_byte_of_outside (hm : Memory.wf s.params.font s.mem) (ha : a + bs.length ≤ memSize) {c : Nat}
    (hc : c < a ∨ a + bs.length ≤ c) : (s.writeBytes a bs).byte c = s.byte c := by
  rw [State.writeBytes_byte s a bs ha hm, dif_neg (by omega)]

end

/-! ### Decimal digits -/

theorem exec_ldBVx_of_le {s : State} (h : s.i.toNat + 2 ≤ 4095) (x : Reg) :
    exec (.ldBVx x) s = .next (s.writeBytes s.i.toNat (decimalDigits (s.getV x))) := by
  simp only [exec, execLdBVx, State.rangeFault_succ_of_le h, State.ea, Nat.add_zero]

theorem exec_ldBVx_of_gt {s : State} (h : 4095 < s.i.toNat + 2) (x : Reg) :
    exec (.ldBVx x) s =
      .next (s.haltedWith .memoryOutOfRange (some (max s.i.toNat 4096)) (encode (.ldBVx x))) := by
  simp only [exec, execLdBVx, State.rangeFault_succ_of_gt h, raise_eq]

/-- A digit is below 256, so the byte made of it holds it whole. -/
theorem decimalDigits_map_toNat (b : Byte) :
    (decimalDigits b).map BitVec.toNat = [b.toNat / 100, b.toNat / 10 % 10, b.toNat % 10] := by
  have := b.isLt
  simp only [decimalDigits, List.map_cons, List.map_nil, BitVec.toNat_ofNat, List.cons.injEq, and_true]
  omega

/-- Settles O41: the bytes of the run written are the three digits, one at each address. -/
theorem decimalDigitsAreStored : Obligations.DecimalDigitsAreStored := by
  unfold Obligations.DecimalDigitsAreStored
  refine fun s x hm => ⟨fun h => ?_, fun h => exec_ldBVx_of_gt h x⟩
  have ha : s.i.toNat + (decimalDigits (s.getV x)).length ≤ memSize := Nat.succ_le_succ h
  have hdigit (j : Nat) (hj : j < 3) :
      ((s.writeBytes s.i.toNat (decimalDigits (s.getV x))).byte (s.i.toNat + j)).toNat
        = [(s.getV x).toNat / 100, (s.getV x).toNat / 10 % 10, (s.getV x).toNat % 10][j] := by
    rw [State.writeBytes_byte_of_lt hm ha hj]
    simp only [← decimalDigits_map_toNat]
    exact (List.getElem_map _).symm
  exact ⟨_, exec_ldBVx_of_le h x, hdigit 0 (by decide), hdigit 1 (by decide), hdigit 2 (by decide),
    fun _ => State.writeBytes_byte_of_outside hm ha, State.writeBytes_eq ..⟩

/-! ### Registers to memory and back -/

theorem exec_ldMemVx_of_gt {s : State} {x : Reg} (h : 4095 < s.i.toNat + x.val) :
    exec (.ldMemVx x) s =
      .next (s.haltedWith .memoryOutOfRange (some (max s.i.toNat 4096)) (encode (.ldMemVx x))) := by
  simp only [exec, execLdMemVx, State.rangeFault_succ_of_gt h, raise_eq]

/-- Settles O42: the run written is the registers up to `x`, one byte each. -/
theorem registersAreStored : Obligations.RegistersAreStored := by
  unfold Obligations.RegistersAreStored
  refine fun s x hm => ⟨fun h => ?_, exec_ldMemVx_of_gt⟩
  refine ⟨_, exec_ldMemVx_of_le h, fun r => State.writeBytes_regsUpTo_byte hm h, fun c hc => ?_, State.writeBytes_eq ..⟩
  have hlen := s.regsUpTo_length x
  exact State.writeBytes_byte_of_outside hm (by simp only [memSize]; omega) (by omega)

theorem exec_ldVxMem_of_le {s : State} {x : Reg} (h : s.i.toNat + x.val ≤ 4095) :
    exec (.ldVxMem x) s = .next { s with v := loadRegs (s.readBytes s.i.toNat (x.val + 1)) 0 s.v } := by
  simp only [exec, execLdVxMem, State.rangeFault_succ_of_le h, State.ea, Nat.add_zero]

theorem exec_ldVxMem_of_gt {s : State} {x : Reg} (h : 4095 < s.i.toNat + x.val) :
    exec (.ldVxMem x) s =
      .next (s.haltedWith .memoryOutOfRange (some (max s.i.toNat 4096)) (encode (.ldVxMem x))) := by
  simp only [exec, execLdVxMem, State.rangeFault_succ_of_gt h, raise_eq]

/-- Register `r` of those loaded from `a` up takes the byte at `a + r`; a register above `x` keeps its value (R84). -/
theorem State.loadRegs_readBytes_getElem (s : State) (a : Nat) (x r : Reg) (v : Vector Byte 16) :
    (loadRegs (s.readBytes a (x.val + 1)) 0 v)[r] = if r ≤ x then s.byte (a + r.val) else v[r] := by
  have hlen := s.readBytes_length a (x.val + 1)
  split
  next hr =>
    have hrx : r.val ≤ x.val := hr
    rw [Fin.getElem_fin, loadRegs_getElem, dif_pos ⟨by omega, by omega⟩, State.readBytes_getElem, Nat.sub_zero]
  next hr => exact loadRegs_of_gt hlen (not_le.1 hr) v

/-- Settles O43: the registers that the bytes read reach are those up to `x`. -/
theorem registersAreLoaded : Obligations.RegistersAreLoaded := by
  unfold Obligations.RegistersAreLoaded
  refine fun s x => ⟨fun h => ?_, exec_ldVxMem_of_gt⟩
  exact ⟨_, exec_ldVxMem_of_le h, fun r => s.loadRegs_readBytes_getElem .., rfl⟩

/-- Settles O44: the store leaves `I`, so the load reads the addresses that were written, and takes each register's byte. -/
theorem storeThenLoadRestoresRegisters : Obligations.StoreThenLoadRestoresRegisters := by
  unfold Obligations.StoreThenLoadRestoresRegisters
  intro s x v' hm h
  obtain ⟨t, ht, hstored, -, hframe⟩ := (registersAreStored s x hm).1 h
  have hi : t.i = s.i := by rw [hframe]
  obtain ⟨u, hu, hloaded, -⟩ := (registersAreLoaded { t with v := v' } x).1 (hi ▸ h)
  refine ⟨t, u, ht, hu, fun r hr => ?_⟩
  calc u.getV r = t.byte (t.i.toNat + r.val) := (hloaded r).trans (if_pos hr)
    _ = s.getV r := by rw [hi, hstored r hr]

end Sys2Proof.Machine
end

section
/-! PROOFS. The display family (spec/44_display.md): clearing the framebuffer (R85), drawing a sprite and its faults (R86,
R104), and drawing it twice (C4). -/

namespace Sys2Proof.Machine

/-! ### Clearing -/

/-- Settles O45: the cleared framebuffer has no set pixel, and nothing but it and `dirty` is written. -/
theorem clearScreenUnsetsEveryPixel : Obligations.ClearScreenUnsetsEveryPixel := by
  unfold Obligations.ClearScreenUnsetsEveryPixel
  exact fun s => ⟨_, rfl, Framebuffer.pixel_clear, rfl⟩

/-! ### The sprite and the collision flag -/

theorem collisionFlag_eq_one_iff (hit : Bool) : collisionFlag hit = 1#8 ↔ hit = true := by
  cases hit <;> decide

theorem collisionFlag_eq_zero_iff (hit : Bool) : collisionFlag hit = 0#8 ↔ hit = false := by
  cases hit <;> decide

theorem spriteRow_eq_iff (oy : Byte) (row : Nat) (r : Fin 32) : r = spriteRow oy row ↔ (oy.toNat + row) % 32 = r.val :=
  Fin.ext_iff.trans eq_comm

theorem spriteCol_eq_iff (ox : Byte) (col : Nat) (c : Fin 64) : spriteCol ox col = c ↔ (ox.toNat + col) % 64 = c.val :=
  Fin.ext_iff

/-- The bits of the bytes that `Dxyn` reads are the bits of the sprite at `I`. -/
theorem State.bytesHit_readBytes (s : State) (x y : Reg) (n : BitVec 4) (r : Fin 32) (c : Fin 64) :
    bytesHit (s.getV x) (s.getV y) (s.readBytes s.i.toNat n.toNat) 0 r c ↔ s.spriteHits x y n r c := by
  simp only [bytesHit, byteHits, State.spriteHits, State.spriteBit, State.readBytes_length, State.readBytes_getElem,
    Nat.zero_add, spriteRow_eq_iff, spriteCol_eq_iff]
  constructor
  · rintro ⟨row, hrow, col, hcol, hr, hbit, hc⟩
    exact ⟨row, col, hrow, hcol, hbit, hr, hc⟩
  · rintro ⟨row, col, hrow, hcol, hbit, hr, hc⟩
    exact ⟨row, hrow, col, hcol, hr, hbit, hc⟩

/-- Which pixels a sprite lands on depends on its bytes and its origin only. -/
theorem State.spriteHits_congr {s t : State} {x y : Reg} (hx : t.getV x = s.getV x) (hy : t.getV y = s.getV y)
    (hi : t.i = s.i) (hmem : ∀ a, t.byte a = s.byte a) (n : BitVec 4) (r : Fin 32) (c : Fin 64) :
    t.spriteHits x y n r c ↔ s.spriteHits x y n r c := by
  simp only [State.spriteHits, State.spriteBit, hx, hy, hi, hmem]

/-! ### The state a completed draw leaves -/

/-- The framebuffer after the `n` rows at `I` are drawn at `(V[x], V[y])`, and whether a set bit met a set pixel (R86). -/
def State.drawSprite (s : State) (x y : Reg) (n : BitVec 4) : Framebuffer × Bool :=
  drawRows (s.getV x) (s.getV y) (s.readBytes s.i.toNat n.toNat) 0 (s.fb, false)

/-- What `Dxyn` leaves when it does not fault (R86). -/
def State.drawn (s : State) (x y : Reg) (n : BitVec 4) : State :=
  ((s.setFb (s.drawSprite x y n).1).setVF (collisionFlag (s.drawSprite x y n).2)).setDirty true

section
variable (s : State) (x y : Reg) (n : BitVec 4)

/-- `n` is at most 15, so no two rows of the sprite share a row of pixels and each pixel is flipped at most once. -/
theorem State.drawSprite_spec :
    (∀ r c, s.spriteHits x y n r c → Framebuffer.pixel (s.drawSprite x y n).1 r c = !(s.pixel r c)) ∧
    (∀ r c, ¬ s.spriteHits x y n r c → Framebuffer.pixel (s.drawSprite x y n).1 r c = s.pixel r c) ∧
    ((s.drawSprite x y n).2 = true ↔ ∃ r c, s.spriteHits x y n r c ∧ s.pixel r c = true) := by
  have hlen : 0 + (s.readBytes s.i.toNat n.toNat).length < 16 := by
    rw [State.readBytes_length, Nat.zero_add]
    exact n.isLt
  have hspec := drawRows_spec (s.getV x) (s.getV y) (s.readBytes s.i.toNat n.toNat) 0 hlen (s.fb, false)
  simp only [State.bytesHit_readBytes, Bool.false_eq_true, false_or] at hspec
  exact hspec

theorem State.drawn_pixel_of_hit {r : Fin 32} {c : Fin 64} (h : s.spriteHits x y n r c) :
    (s.drawn x y n).pixel r c = !(s.pixel r c) :=
  (s.drawSprite_spec x y n).1 r c h

theorem State.drawn_pixel_of_not_hit {r : Fin 32} {c : Fin 64} (h : ¬ s.spriteHits x y n r c) :
    (s.drawn x y n).pixel r c = s.pixel r c :=
  (s.drawSprite_spec x y n).2.1 r c h

theorem State.drawn_getV (r : Reg) :
    (s.drawn x y n).getV r = if r = 15 then collisionFlag (s.drawSprite x y n).2 else s.getV r :=
  State.setV_getV ..

theorem State.drawn_getV_of_ne {r : Reg} (hr : r ≠ 15) : (s.drawn x y n).getV r = s.getV r :=
  (s.drawn_getV x y n r).trans (if_neg hr)

theorem State.drawn_getV_vf_eq_one_iff :
    (s.drawn x y n).getV 15 = 1#8 ↔ ∃ r c, s.spriteHits x y n r c ∧ s.pixel r c = true := by
  rw [State.drawn_getV, if_pos rfl, collisionFlag_eq_one_iff]
  exact (s.drawSprite_spec x y n).2.2

theorem State.drawn_getV_vf_eq_zero_iff :
    (s.drawn x y n).getV 15 = 0#8 ↔ ∀ r c, s.spriteHits x y n r c → s.pixel r c = false := by
  rw [State.drawn_getV, if_pos rfl, collisionFlag_eq_zero_iff, ← Bool.not_eq_true, (s.drawSprite_spec x y n).2.2]
  simp only [not_exists, not_and, Bool.not_eq_true]

end

/-! ### The outcomes of `Dxyn` -/

section
variable {s : State} {x y : Reg} {n : BitVec 4}

theorem State.not_refusesVf_pair (h : s.params.vfAlias = .sequential ∨ (x ≠ 15 ∧ y ≠ 15)) :
    ¬ s.refusesVf [x, y] = true :=
  State.not_refusesVf (by rwa [Reg.vf_mem_pair, not_or])

theorem exec_drw_of_refuses (h : s.refusesVf [x, y] = true) :
    exec (.drw x y n) s = .next (s.haltedWith .unmodelled none (encode (.drw x y n))) := by
  simp only [exec, execDrw, if_pos h, raise_eq]

theorem exec_drw_of_gt (hok : ¬ s.refusesVf [x, y] = true) (hn : 0 < n.toNat) (h : 4095 < s.i.toNat + n.toNat - 1) :
    exec (.drw x y n) s =
      .next (s.haltedWith .memoryOutOfRange (some (max s.i.toNat 4096)) (encode (.drw x y n))) := by
  have hr : s.rangeFault n.toNat = some (max s.i.toNat 4096) :=
    (s.rangeFault_eq_some _ _).2 ⟨hn, by simp only [memSize]; omega, rfl⟩
  simp only [exec, execDrw, if_neg hok, hr, raise_eq]

theorem exec_drw_of_le (hok : ¬ s.refusesVf [x, y] = true) (h : n.toNat = 0 ∨ s.i.toNat + n.toNat - 1 ≤ 4095) :
    exec (.drw x y n) s = .next (s.drawn x y n) := by
  have hr : s.rangeFault n.toNat = none := (s.rangeFault_eq_none _).2 (by simp only [memSize]; omega)
  simp only [exec, execDrw, if_neg hok, hr]
  rfl

end

/-- Settles O46: a draw that neither refuses VF nor leaves memory flips each pixel its set bits land on once. -/
theorem drawFlipsTheSpritesPixels : Obligations.DrawFlipsTheSpritesPixels := by
  unfold Obligations.DrawFlipsTheSpritesPixels
  intro s x y n
  refine ⟨fun hp hv => exec_drw_of_refuses (State.refusesVf_of_mem hp (Reg.vf_mem_pair.2 hv)),
    fun hp => exec_drw_of_gt (State.not_refusesVf_pair hp), fun hp h => ?_⟩
  exact ⟨_, exec_drw_of_le (State.not_refusesVf_pair hp) h, fun r c => s.drawn_pixel_of_hit x y n,
    fun r c => s.drawn_pixel_of_not_hit x y n, (s.drawn_getV_vf_eq_one_iff x y n).2, (s.drawn_getV_vf_eq_zero_iff x y n).2,
    fun r => s.drawn_getV_of_ne x y n, rfl⟩

/-! ### Drawing twice -/

section
variable (s : State) {x y : Reg} (hx : x ≠ 15) (hy : y ≠ 15) (n : BitVec 4) (r : Fin 32) (c : Fin 64)
include hx hy

/-- A draw writes neither the sprite nor, when VF is not its origin, where the sprite lands: the next one hits the same
pixels. -/
theorem State.drawn_advance_spriteHits : (s.drawn x y n).advance.spriteHits x y n r c ↔ s.spriteHits x y n r c :=
  State.spriteHits_congr (s.drawn_getV_of_ne x y n hx) (s.drawn_getV_of_ne x y n hy) rfl (fun _ => rfl) n r c

/-- A pixel that is hit is flipped twice. -/
theorem State.drawn_twice_pixel : ((s.drawn x y n).advance.drawn x y n).pixel r c = s.pixel r c := by
  have hits := s.drawn_advance_spriteHits hx hy n r c
  by_cases hit : s.spriteHits x y n r c
  · calc ((s.drawn x y n).advance.drawn x y n).pixel r c = !((s.drawn x y n).pixel r c) :=
          State.drawn_pixel_of_hit _ x y n (hits.2 hit)
      _ = s.pixel r c := by rw [s.drawn_pixel_of_hit x y n hit, Bool.not_not]
  · calc ((s.drawn x y n).advance.drawn x y n).pixel r c = (s.drawn x y n).pixel r c :=
          State.drawn_pixel_of_not_hit _ x y n (mt hits.1 hit)
      _ = s.pixel r c := s.drawn_pixel_of_not_hit x y n hit

/-- A set pixel that the second draw hits is one that the first found unset (log 20). -/
theorem State.drawn_twice_getV_vf_eq_one_iff :
    ((s.drawn x y n).advance.drawn x y n).getV 15 = 1#8 ↔ ∃ r c, s.spriteHits x y n r c ∧ s.pixel r c = false := by
  rw [State.drawn_getV_vf_eq_one_iff]
  refine exists₂_congr fun r c => ?_
  rw [s.drawn_advance_spriteHits hx hy]
  refine and_congr_right fun hit => ?_
  rw [State.advance_eq, State.setPc_pixel, s.drawn_pixel_of_hit x y n hit, Bool.not_eq_true']

end

/-- Settles O47: the first draw leaves `I`, so the second faults no more than the first, and both hit the same pixels. -/
theorem drawingTwiceRestoresThePixels : Obligations.DrawingTwiceRestoresThePixels := by
  unfold Obligations.DrawingTwiceRestoresThePixels
  intro s x y n hx hy h
  have hok (t : State) : ¬ t.refusesVf [x, y] = true := State.not_refusesVf_pair (.inr ⟨hx, hy⟩)
  exact ⟨s.drawn x y n, (s.drawn x y n).advance.drawn x y n, exec_drw_of_le (hok _) h, exec_drw_of_le (hok _) h,
    s.drawn_twice_pixel hx hy n, s.drawn_getV_vf_eq_one_iff x y n, s.drawn_twice_getV_vf_eq_one_iff hx hy n⟩

end Sys2Proof.Machine
end

section
/-! PROOFS. The keys-and-timers family (spec/45_keys_timers.md): the skips on a key with their fault (R88, R89, R100), the key
wait (R91), and the timer transfers with the tick that follows them (R90, R92, R93). -/

namespace Sys2Proof.Machine

/-! ### Skips on a key -/

section
variable {s : State} {x : Reg} {k : Fin 16}

theorem exec_skp_of_key (h : (s.getV x).toNat = k.val) :
    exec (.skp x) s = .next { s with pc := if s.pressed k = true then s.pc + 2#16 else s.pc } := by
  simp only [exec, execSkp, (keyOf_eq_some _ k).2 h]
  split <;> rfl

theorem exec_skp_of_gt (h : 15 < (s.getV x).toNat) :
    exec (.skp x) s = .next (s.haltedWith .keyIndexOutOfRange (some (s.getV x).toNat) (encode (.skp x))) := by
  simp only [exec, execSkp, (keyOf_eq_none _).2 h, raise_eq]

theorem exec_sknp_of_not_pressed (h : (s.getV x).toNat = k.val) (hk : s.pressed k = false) :
    exec (.sknp x) s = .next s.skip := by
  simp only [exec, execSknp, (keyOf_eq_some _ k).2 h, hk, Bool.false_eq_true, if_false]

theorem exec_sknp_of_pressed (h : (s.getV x).toNat = k.val) (hk : s.pressed k = true) :
    exec (.sknp x) s = .next s.clearKeys := by
  simp only [exec, execSknp, (keyOf_eq_some _ k).2 h, hk, if_true]

theorem exec_sknp_of_gt (h : 15 < (s.getV x).toNat) :
    exec (.sknp x) s = .next (s.haltedWith .keyIndexOutOfRange (some (s.getV x).toNat) (encode (.sknp x))) := by
  simp only [exec, execSknp, (keyOf_eq_none _).2 h, raise_eq]

end

/-- Settles O48: a register value up to 15 names its key, a larger one none. -/
theorem skipIfKeyPressed : Obligations.SkipIfKeyPressed := by
  unfold Obligations.SkipIfKeyPressed
  exact fun s x => ⟨fun k => exec_skp_of_key, exec_skp_of_gt⟩

/-- Settles O49: the latch is cleared in the one outcome that does not skip. -/
theorem skipIfKeyNotPressedElseClear : Obligations.SkipIfKeyNotPressedElseClear := by
  unfold Obligations.SkipIfKeyNotPressedElseClear
  refine fun s x => ⟨fun k => exec_sknp_of_not_pressed, fun k h hk => ?_, exec_sknp_of_gt⟩
  exact ⟨s.clearKeys, exec_sknp_of_pressed h hk, s.clearKeys_pressed, rfl⟩

/-! ### The key wait -/

/-- A key number is below 256, so the byte made of it holds it whole. -/
theorem keyByte_toNat (k : Fin 16) : (BitVec.ofNat 8 k.val).toNat = k.val := by
  rw [BitVec.toNat_ofNat]
  omega

/-- Settles O50: the first pressed key is the pressed key with none pressed below it, and there is none in an empty latch. -/
theorem keyWaitTakesTheLowestKey : Obligations.KeyWaitTakesTheLowestKey := by
  unfold Obligations.KeyWaitTakesTheLowestKey
  refine fun s x => ⟨fun k hk hlow => ?_, fun hnone => exec_ldVxK_of_none (s.firstPressed_eq_none.2 hnone) x⟩
  have hfirst : s.firstPressed = some k := (s.firstPressed_eq_some k).2 ⟨hk, hlow⟩
  refine ⟨_, exec_ldVxK_of_some hfirst x, fun r => ?_, State.clearKeys_pressed _, rfl⟩
  rw [State.clearKeys_getV, State.setV_getV_toNat, keyByte_toNat]

/-! ### Timer transfers and the tick after them -/

section
variable {s : State} (h : s.status = .running)
include h

theorem State.endCycle_dt_toNat : s.endCycle.dt.toNat = s.dt.toNat - 1 := by
  rw [s.endCycle_of_running h, State.tick_dt, tickDown_toNat]

theorem State.endCycle_st_toNat : s.endCycle.st.toNat = s.st.toNat - 1 := by
  rw [s.endCycle_of_running h, State.tick_st, tickDown_toNat]

end

/-- Settles O51: each transfer is one write, and the tick that ends the cycle sees the timer as written. -/
theorem timerTransfers : Obligations.TimerTransfers := by
  unfold Obligations.TimerTransfers
  intro s x
  have hread : ∀ r, (s.setV x s.dt).getV r = if r = x then s.dt else s.getV r := s.setV_getV x s.dt
  have hdt : s.status = .running → (s.setDt (s.getV x)).endCycle.dt.toNat = (s.getV x).toNat - 1 :=
    State.endCycle_dt_toNat (s := s.setDt (s.getV x))
  have hst : s.status = .running → (s.setSt (s.getV x)).endCycle.st.toNat = (s.getV x).toNat - 1 :=
    State.endCycle_st_toNat (s := s.setSt (s.getV x))
  exact ⟨⟨_, rfl, hread, rfl⟩, ⟨_, rfl, rfl, State.endCycle_status _, hdt⟩, ⟨_, rfl, rfl, hst⟩⟩

end Sys2Proof.Machine
end

section
/-! PROOFS. The exceptions family (spec/60_exceptions.md): which instruction raises which fault (R95 to R102), faults are precise
(R94, R96), what each host command does (R110 to R117), and the invariant that every sequence of them keeps (R109). -/

namespace Sys2Proof.Machine

/-! ### The fault table (R95) -/

/-- The rows of R95's table that an instruction raises: the instruction, the condition on the state in which it is executed, the
kind and the info. Code 1 has no row, since it is the cycle's own (R96). -/
inductive Raises (s : State) : Instr → FaultKind → Option Nat → Prop where
  /-- R97 -/
  | call {nnn} (full : s.sp.val = 16) : Raises s (.call nnn) .stackOverflow none
  /-- R98 -/
  | ret (empty : s.sp.val = 0) : Raises s .ret .stackUnderflow none
  /-- R99: the three digits -/
  | digits {x} (range : 4095 < s.i.toNat + 2) : Raises s (.ldBVx x) .memoryOutOfRange (some (max s.i.toNat 4096))
  /-- R99: `V[0]` to `V[x]` -/
  | registers {i} {x : Reg} (form : i = .ldMemVx x ∨ i = .ldVxMem x) (range : 4095 < s.i.toNat + x.val) :
    Raises s i .memoryOutOfRange (some (max s.i.toNat 4096))
  /-- R99: the rows of a sprite -/
  | sprite {x y} {n : BitVec 4} (rows : 0 < n.toNat) (range : 4095 < s.i.toNat + n.toNat - 1) :
    Raises s (.drw x y n) .memoryOutOfRange (some (max s.i.toNat 4096))
  /-- R100 -/
  | key {i x} (form : i = .skp x ∨ i = .sknp x) (key : 15 < (s.getV x).toNat) :
    Raises s i .keyIndexOutOfRange (some (s.getV x).toNat)
  /-- R101 -/
  | addIVx {x} (sum : 0xFFFF < s.i.toNat + (s.getV x).toNat) (param : s.params.iAddOverflow = .fault) :
    Raises s (.addIVx x) .indexOverflow none
  /-- R102: one of two operands is VF -/
  | vfOfTwo {i x y} (form : i = .sub x y ∨ i = .subn x y ∨ ∃ n, i = .drw x y n) (refuses : s.refusesVf [x, y] = true) :
    Raises s i .unmodelled none
  /-- R102: the one operand is VF -/
  | vfOfOne {i x y} (form : i = .shr x y ∨ i = .shl x y) (refuses : s.refusesVf [x] = true) : Raises s i .unmodelled none

/-- The instruction goes to a next state of the same status. -/
def Completes (i : Instr) (s : State) : Prop := ∃ t, exec i s = .next t ∧ t.status = s.status

/-- The instruction raises a fault of its row of R95's table. -/
def Faults (i : Instr) (s : State) : Prop :=
  ∃ kind info, Raises s i kind info ∧ exec i s = .next (s.haltedWith kind info (encode i))

@[simp] theorem State.writeBytes_status (s : State) (a : Nat) (bs : List Byte) :
    (s.writeBytes a bs).status = s.status := by
  rw [State.writeBytes_eq]

@[simp] theorem State.skipIf_status (s : State) (c : Bool) : (s.skipIf c).status = s.status := by
  cases c <;> rfl

section
variable (s : State)

/-- The two outcomes of an instruction that faults on the condition `c`. -/
theorem completes_or_faults_on (c : Prop) {i : Instr} {kind : FaultKind} {info : Option Nat} (row : c → Raises s i kind info)
    (hfault : c → exec i s = .next (s.haltedWith kind info (encode i))) (hok : ¬ c → Completes i s) :
    Completes i s ∨ Faults i s := by
  by_cases h : c
  · exact .inr ⟨kind, info, row h, hfault h⟩
  · exact .inl (hok h)

/-- VF as an operand is refused before the range is checked (R104). -/
theorem drw_completes_or_faults (x y : Reg) (n : BitVec 4) : Completes (.drw x y n) s ∨ Faults (.drw x y n) s := by
  by_cases hvf : s.refusesVf [x, y] = true
  · exact .inr ⟨_, _, .vfOfTwo (.inr (.inr ⟨n, rfl⟩)) hvf, exec_drw_of_refuses hvf⟩
  · refine completes_or_faults_on s (0 < n.toNat ∧ 4095 < s.i.toNat + n.toNat - 1)
      (fun ⟨hrows, hrange⟩ => .sprite hrows hrange) (fun ⟨hrows, hrange⟩ => exec_drw_of_gt hvf hrows hrange)
      fun hin => ⟨_, exec_drw_of_le hvf ?_, rfl⟩
    omega

theorem skp_completes {x : Reg} (h : ¬ 15 < (s.getV x).toNat) : Completes (.skp x) s :=
  ⟨_, exec_skp_of_key (k := ⟨(s.getV x).toNat, by omega⟩) rfl, rfl⟩

theorem sknp_completes {x : Reg} (h : ¬ 15 < (s.getV x).toNat) : Completes (.sknp x) s := by
  cases hk : s.pressed ⟨(s.getV x).toNat, by omega⟩ with
  | false => exact ⟨_, exec_sknp_of_not_pressed rfl hk, rfl⟩
  | true => exact ⟨_, exec_sknp_of_pressed rfl hk, rfl⟩

theorem ldVxK_completes (x : Reg) : Completes (.ldVxK x) s := by
  rcases execLdVxK_cases x s with ⟨b, h⟩ | h
  · exact ⟨_, h, rfl⟩
  · exact ⟨_, h, rfl⟩

theorem addIVx_completes_or_faults (x : Reg) : Completes (.addIVx x) s ∨ Faults (.addIVx x) s := by
  cases param : s.params.iAddOverflow with
  | wrap => exact .inl ⟨_, exec_addIVx_of_le_or_wrap (.inr param), rfl⟩
  | fault =>
    exact completes_or_faults_on s (0xFFFF < s.i.toNat + (s.getV x).toNat) (.addIVx · param) (exec_addIVx_of_gt · param)
      fun h => ⟨_, exec_addIVx_of_le_or_wrap (.inl (not_lt.1 h)), rfl⟩

/-- Every instruction completes or raises a fault of its row of R95's table. -/
theorem exec_completes_or_faults (i : Instr) : Completes i s ∨ Faults i s := by
  cases i with
  | ret =>
    exact completes_or_faults_on s (s.sp.val = 0) .ret exec_ret_of_empty
      fun h => ⟨_, exec_ret_of_pos (Nat.pos_of_ne_zero h), rfl⟩
  | call nnn =>
    exact completes_or_faults_on s (s.sp.val = 16) .call (exec_call_of_full · nnn)
      fun h => ⟨_, exec_call_of_lt (by omega) nnn, rfl⟩
  | sub x y =>
    exact completes_or_faults_on s _ (.vfOfTwo (.inl rfl)) exec_sub_of_refuses
      fun h => ⟨_, exec_sub_of_not_refuses h, rfl⟩
  | subn x y =>
    exact completes_or_faults_on s _ (.vfOfTwo (.inr (.inl rfl))) exec_subn_of_refuses
      fun h => ⟨_, exec_subn_of_not_refuses h, rfl⟩
  | shr x y =>
    exact completes_or_faults_on s _ (.vfOfOne (.inl rfl)) (exec_shr_of_refuses · y)
      fun h => ⟨_, exec_shr_of_not_refuses h y, rfl⟩
  | shl x y =>
    exact completes_or_faults_on s _ (.vfOfOne (.inr rfl)) (exec_shl_of_refuses · y)
      fun h => ⟨_, exec_shl_of_not_refuses h y, rfl⟩
  | drw x y n => exact drw_completes_or_faults s x y n
  | skp x => exact completes_or_faults_on s _ (.key (.inl rfl)) exec_skp_of_gt (skp_completes s)
  | sknp x => exact completes_or_faults_on s _ (.key (.inr rfl)) exec_sknp_of_gt (sknp_completes s)
  | ldVxK x => exact .inl (ldVxK_completes s x)
  | addIVx x => exact addIVx_completes_or_faults s x
  | ldBVx x =>
    exact completes_or_faults_on s _ .digits (exec_ldBVx_of_gt · x)
      fun h => ⟨_, exec_ldBVx_of_le (not_lt.1 h) x, s.writeBytes_status ..⟩
  | ldMemVx x =>
    exact completes_or_faults_on s _ (.registers (.inl rfl)) exec_ldMemVx_of_gt
      fun h => ⟨_, exec_ldMemVx_of_le (not_lt.1 h), s.writeBytes_status ..⟩
  | ldVxMem x =>
    exact completes_or_faults_on s _ (.registers (.inr rfl)) exec_ldVxMem_of_gt
      fun h => ⟨_, exec_ldVxMem_of_le (not_lt.1 h), rfl⟩
  | seImm | sneImm | seReg | sneReg => exact .inl ⟨_, rfl, s.skipIf_status _⟩
  | cls | sys | jp | ldImm | addImm | ldReg | or | and | xor | addReg | ldI | jpV0 | rnd | ldVxDt | ldDtVx | ldStVx
  | ldFVx => exact .inl ⟨_, rfl, rfl⟩

end

/-- An instruction that halts a running block has raised a fault of its row, and the block is halted with its record. -/
theorem raises_of_exec_halted {i : Instr} {s t : State} {f : FaultRecord} (hrun : s.status = .running)
    (hexec : exec i s = .next t) (hhalt : t.status = .halted f) :
    ∃ kind info, Raises s i kind info ∧ t = s.haltedWith kind info (encode i) ∧
      f = { kind := kind, pc := s.pc - 2#16, word := some (encode i), info := info } := by
  rcases exec_completes_or_faults s i with ⟨u, hu, hstatus⟩ | ⟨kind, info, row, hu⟩ <;> cases hu.symm.trans hexec
  · cases hrun.symm.trans (hstatus.symm.trans hhalt)
  · injection hhalt with hf
    exact ⟨kind, info, row, rfl, hf.symm⟩

theorem State.refusesVf_iff (s : State) (xs : List Reg) :
    s.refusesVf xs = true ↔ s.params.vfAlias = .refuse ∧ Reg.vf ∈ xs := by
  simp [State.refusesVf]

/-- Settles O10, row by row of the table. -/
theorem faultKindsByInstruction : Obligations.FaultKindsByInstruction := by
  unfold Obligations.FaultKindsByInstruction
  intro i s t f hrun hexec hhalt
  obtain ⟨kind, info, row, -, rfl⟩ := raises_of_exec_halted hrun hexec hhalt
  cases row with
  | @call nnn full => exact ⟨⟨nnn, rfl⟩, full, rfl⟩
  | ret empty => exact ⟨rfl, empty, rfl⟩
  | @digits x range => exact ⟨rfl, .inl ⟨x, rfl, range⟩⟩
  | @registers _ x form range => exact ⟨rfl, .inr (.inl ⟨x, form, range⟩)⟩
  | @sprite x y n rows range => exact ⟨rfl, .inr (.inr ⟨x, y, n, rfl, rows, range⟩)⟩
  | @key _ x form key => exact ⟨x, form, key, rfl⟩
  | @addIVx x sum param => exact ⟨param, rfl, x, rfl, sum⟩
  | @vfOfTwo _ x y form refuses =>
    obtain ⟨param, operand⟩ := (s.refusesVf_iff _).1 refuses
    exact ⟨param, rfl, x, y, .inl ⟨form, Reg.vf_mem_pair.1 operand⟩⟩
  | @vfOfOne _ x y form refuses =>
    obtain ⟨param, operand⟩ := (s.refusesVf_iff _).1 refuses
    exact ⟨param, rfl, x, y, .inr ⟨form, Reg.vf_mem_singleton.1 operand⟩⟩

/-! ### Faults of a cycle (R94, R96) -/

/-- A fault of the instruction at `PC` puts `PC` back to the fetch address. -/
theorem State.advance_haltedWith (s : State) (kind : FaultKind) (info : Option Nat) (w : Word) :
    s.advance.haltedWith kind info w =
      { s with status := .halted { kind := kind, pc := s.pc, word := some w, info := info } } := by
  simp only [State.haltedWith, State.advance, State.setPc, BitVec.add_sub_cancel]

/-- A fault of the fetch or of the decoder changes the status alone. -/
theorem State.takeFault_of_fetchInstr {s : State} {f : FaultRecord} (h : s.fetchInstr = .error f) :
    s.takeFault f = { s with status := .halted f } := by
  rw [State.takeFault, State.fetchInstr_error_pc h]

/-- The word of the record is the word at `PC`, and none when the fetch itself faulted (R95). -/
def FaultRecord.NamesWordOf (f : FaultRecord) (s : State) : Prop :=
  (s.pc.toNat ≤ 4094 → f.word = some s.wordAtPc) ∧ (4094 < s.pc.toNat → f.word = none)

theorem State.fetchInstr_error_namesWord {s : State} {f : FaultRecord} (h : s.fetchInstr = .error f) :
    f.NamesWordOf s := by
  rcases (s.fetchInstr_eq_error f).1 h with ⟨hpc, rfl⟩ | ⟨hpc, -, rfl⟩
  · exact ⟨fun hle => absurd hpc (Nat.not_lt.2 hle), fun _ => rfl⟩
  · exact ⟨fun _ => rfl, fun hgt => absurd hgt (Nat.not_lt.2 hpc)⟩

/-- A fetched instruction has the fetched word (R47). -/
theorem State.encode_of_fetches {s : State} {i : Instr} (h : s.fetches i) : encode i = s.wordAtPc :=
  (encode_of_decode h.2).2

/-- A step that halts a running block changes the status alone, and its record names the address and the word. -/
theorem step_halted {s t : State} {f : FaultRecord} (hstep : step s = .next t) (hhalt : t.status = .halted f) :
    t = { s with status := .halted f } ∧ f.pc = s.pc ∧ f.NamesWordOf s := by
  obtain ⟨hrun, ⟨g, hg, rfl⟩ | ⟨i, u, hf, hu, rfl⟩⟩ := step_next_cases hstep
  · cases hhalt
    exact ⟨State.takeFault_of_fetchInstr hg, State.fetchInstr_error_pc hg, State.fetchInstr_error_namesWord hg⟩
  · rw [State.endCycle_status] at hhalt
    rw [u.endCycle_of_halted hhalt]
    obtain ⟨kind, info, -, rfl, rfl⟩ := raises_of_exec_halted (s := s.advance) hrun hu hhalt
    have hback : s.advance.pc - 2#16 = s.pc := BitVec.add_sub_cancel ..
    rw [State.advance_haltedWith, State.encode_of_fetches hf, hback]
    exact ⟨rfl, rfl, fun _ => rfl, fun hgt => absurd hgt (Nat.not_lt.2 hf.1)⟩

/-- The cycle that faults returns the record (R112). -/
theorem hostCycle_of_fault {s t : State} {f : FaultRecord} (hstep : step s = .next t) (hhalt : t.status = .halted f) :
    hostCycle s = (t, .fault f) := by
  simp only [hostCycle, hstep, hhalt]

/-- Settles O9: a fault of the fetch, of the decoder or of the instruction leaves the state before the cycle, halted. -/
theorem faultsArePrecise : Obligations.FaultsArePrecise := by
  unfold Obligations.FaultsArePrecise
  intro s t f _ hstep hhalt
  obtain ⟨hstate, hpc, hword, hnoword⟩ := step_halted hstep hhalt
  exact ⟨hstate, hpc, hword, hnoword, hostCycle_of_fault hstep hhalt⟩

/-- Settles O7: the decoder's rejection of a fetched word is the fault of the cycle. -/
theorem illegalWordHaltsTheBlock : Obligations.IllegalWordHaltsTheBlock := by
  unfold Obligations.IllegalWordHaltsTheBlock
  intro s why hrun hpc hreject
  refine ⟨rfl, { kind := .decodeFailure, pc := s.pc, word := some s.wordAtPc, info := none }, ?_, rfl, rfl, rfl, rfl⟩
  have hfault := (s.fetchInstr_eq_error _).2 (.inr ⟨hpc, ⟨why, hreject⟩, rfl⟩)
  exact (step_of_fetch_error s _ hrun hfault).trans (congrArg _ (State.takeFault_of_fetchInstr hfault))

/-! ### The host commands (R111 to R117) -/

theorem hostLoad_of_le {bytes : List Byte} (h : bytes.length ≤ 3584) (s : State) :
    hostLoad bytes s = (s.writeBytes 0x200 bytes, .ok) :=
  if_neg (Nat.not_lt.2 h)

theorem hostLoad_of_gt {bytes : List Byte} (h : 3584 < bytes.length) (s : State) :
    hostLoad bytes s = (s, .refused .loadTooLarge) :=
  if_pos h

/-- Settles O54: 3584 bytes from 0x200 up end at the end of memory. -/
theorem loadCopiesTheImageOrRefuses : Obligations.LoadCopiesTheImageOrRefuses := by
  unfold Obligations.LoadCopiesTheImageOrRefuses
  refine fun s bytes hm => ⟨fun h => ?_, fun h => hostLoad_of_gt h s⟩
  have hrange : 0x200 + bytes.length ≤ memSize := Nat.add_le_add_left h 0x200
  exact ⟨_, hostLoad_of_le h s, fun k => State.writeBytes_byte_of_lt hm hrange,
    fun a => State.writeBytes_byte_of_outside hm hrange, s.writeBytes_eq 0x200 bytes⟩

theorem hostSetKey_of_lt {k : Nat} (h : k < 16) (s : State) : hostSetKey k s = (s.pressKey ⟨k, h⟩, .ok) :=
  dif_pos h

theorem hostSetKey_of_gt {k : Nat} (h : 15 < k) (s : State) : hostSetKey k s = (s, .refused .keyOutOfRange) :=
  dif_neg (Nat.not_lt.2 h)

/-- Settles O55: pressing a key and clearing the latch write the latch alone. -/
theorem keyCommandsSetOneOrClearAll : Obligations.KeyCommandsSetOneOrClearAll := by
  unfold Obligations.KeyCommandsSetOneOrClearAll
  refine fun s k => ⟨fun h => ?_, fun h => hostSetKey_of_gt h s, s.clearKeys, rfl, s.clearKeys_pressed, rfl⟩
  refine ⟨_, hostSetKey_of_lt h s, by simp, fun j hj => ?_, rfl⟩
  have hne : j ≠ ⟨k, h⟩ := fun he => hj (congrArg Fin.val he)
  simp [hne]

/-- The rows one after another are the flattened framebuffer. -/
theorem Framebuffer.flatMap_toList (f : Framebuffer) : f.toList.flatMap (fun row => row.toList) = (Vector.flatten f).toList := by
  simp [Vector.flatten, List.flatMap_def, Vector.toList, Function.comp_def]

/-- Pixel (`row`, `col`) is element `row*64 + col` of the flattened framebuffer (R113). -/
theorem Framebuffer.flatten_getElem? (f : Framebuffer) (row : Fin 32) (col : Fin 64) :
    (Vector.flatten f).toList[row.val * 64 + col.val]? = some (Framebuffer.pixel f row col) := by
  have hlt : row.val * 64 + col.val < 32 * 64 := by omega
  have hrow : (row.val * 64 + col.val) / 64 = row.val := by omega
  have hcol : (row.val * 64 + col.val) % 64 = col.val := by omega
  rw [Vector.getElem?_toList, Vector.getElem?_eq_getElem hlt, Vector.getElem_flatten]
  simp only [hrow, hcol, Framebuffer.pixel, Fin.getElem_fin]

/-- Settles O56: the reply is the flattened framebuffer; the other commands are their own equations. -/
theorem readCommandsReturnAndChangeNothing : Obligations.ReadCommandsReturnAndChangeNothing := by
  unfold Obligations.ReadCommandsReturnAndChangeNothing
  intro s
  have hreply : command .readFramebuffer s = (s, .framebuffer (Vector.flatten s.fb).toList) :=
    congrArg (fun bits => (s, Reply.framebuffer bits)) (Framebuffer.flatMap_toList s.fb)
  exact ⟨⟨_, hreply, Vector.length_toList, Framebuffer.flatten_getElem? s.fb⟩, rfl, rfl, rfl⟩

/-! ### Every sequence of host commands keeps the invariant (R109) -/

/-- The block after construction lists no byte, fetches at 0x200 and holds the return addresses 0 (R123). -/
theorem State.construct_inv (p : Params) : Inv (State.construct p) where
  memory := by simp [Memory.wf, State.construct]
  pc := by simp [State.construct]
  stack j := by simp [State.construct]
  halted _ h := by cases h

theorem hostLoad_inv {s : State} (h : Inv s) (bytes : List Byte) : Inv (hostLoad bytes s).1 := by
  rcases Nat.lt_or_ge 3584 bytes.length with hlen | hlen
  · rwa [hostLoad_of_gt hlen]
  · rw [hostLoad_of_le hlen]
    exact h.writeBytes (Nat.add_le_add_left hlen 0x200)

theorem hostCycle_inv {s : State} (h : Inv s) : Inv (hostCycle s).1 := by
  cases hs : s.status with
  | running =>
    obtain ⟨t, ht⟩ := exists_step_of_running hs
    rw [hostCycle_of_next ht]
    exact stepKeepsTheInvariant s t h ht
  | halted f => rwa [hostCycle_of_halted s hs]

theorem hostSetKey_inv {s : State} (h : Inv s) (k : Nat) : Inv (hostSetKey k s).1 := by
  rcases Nat.lt_or_ge k 16 with hk | hk
  · rw [hostSetKey_of_lt hk]
    exact h.withData rfl
  · rwa [hostSetKey_of_gt hk]

theorem command_inv {s : State} (h : Inv s) (c : Command) : Inv (command c s).1 := by
  cases c with
  | new => exact (State.construct_inv s.params).withData rfl
  | load bytes => exact hostLoad_inv h bytes
  | cycle => exact hostCycle_inv h
  | setKey k => exact hostSetKey_inv h k
  | readFramebuffer | readDirty | readSoundTimer => exact h
  | clearDirty | clearKeys => exact h.withData rfl

/-- Settles O14, by induction on the host's commands. -/
theorem hostCommandsKeepTheInvariant : Obligations.HostCommandsKeepTheInvariant := by
  unfold Obligations.HostCommandsKeepTheInvariant
  intro cs
  induction cs with
  | nil => exact fun _ h => h
  | cons c cs ih => exact fun s h => ih (command c s).1 (command_inv h c)

end Sys2Proof.Machine
end

section
/-! PROOFS. The reset family (spec/70_reset_and_hazards.md): the state that construction leaves (R123). -/

namespace Sys2Proof.Machine

/-- Settles O13: the reset state is the construction under the default parameters. -/
theorem constructionMeetsTheInvariant : Obligations.ConstructionMeetsTheInvariant := by
  unfold Obligations.ConstructionMeetsTheInvariant
  exact ⟨State.construct_inv, State.construct_inv Config.defaultParams⟩

/-! ### The elements that construction fills with one value (R123) -/

/-- Construction leaves 0 in every byte past FONT's. -/
theorem State.construct_byte_of_ge (p : Params) {a : Nat} (ha : 80 ≤ a) : (State.construct p).byte a = 0#8 :=
  dif_neg (Nat.not_lt.2 ha)

@[simp] theorem State.construct_getV (p : Params) (x : Reg) : (State.construct p).getV x = 0#8 :=
  Vector.getElem_replicate x.isLt

theorem State.construct_stack (p : Params) (j : Fin 16) : (State.construct p).stack[j] = 0#16 :=
  Vector.getElem_replicate j.isLt

@[simp] theorem State.construct_pressed (p : Params) (k : Fin 16) : (State.construct p).pressed k = false :=
  Vector.getElem_replicate k.isLt

@[simp] theorem State.construct_pixel (p : Params) (row : Fin 32) (col : Fin 64) :
    (State.construct p).pixel row col = false :=
  Framebuffer.pixel_clear row col

/-- Settles O52: memory from 0 to 79 and above, the arrays one by one, and the single fields as construction writes them. -/
theorem constructionZeroesAllButFontAndPc : Obligations.ConstructionZeroesAllButFontAndPc := by
  unfold Obligations.ConstructionZeroesAllButFontAndPc
  exact fun p => ⟨fun _ => State.construct_byte_of_lt p, fun _ ha _ => State.construct_byte_of_ge p ha,
    State.construct_getV p, State.construct_stack p, State.construct_pressed p, rfl, rfl, rfl, rfl,
    State.construct_pixel p, rfl, rfl, rfl, rfl⟩

end Sys2Proof.Machine
end
